-- ==== Sys2Proof/Word.lean ====
section
/-! DEFINITION. The word types of the core. Each is a bit vector because the spec slices, shifts or compares it as bits. -/

namespace Sys2Proof

/-- One VRAM word, a packed colour, a 16-bit coordinate operand (R7, R20, R83). -/
abbrev Word := BitVec 16

/-- One word of the command stream, and one response word (R80). -/
abbrev Cmd := BitVec 32

/-- A binary32 value, as its IEEE-754 bit pattern (R7, R10, R83). -/
abbrev F32 := BitVec 32

/-- The address of a VRAM word, `wa(x, y)`: 19 bits, so that it names a word of the 1024 x 512 array and nothing
else (R50, R148). -/
abbrev WordAddr := BitVec 19

end Sys2Proof
end

