-- ==== Sys2Proof/Config.lean ====
section
/-! DEFINITION. The open parameters of R8: uninterpreted constants, so that nothing can be proved of their values and
every claim holds for each value. A parameter of a `choose` draw (R12) takes the draw's number first: a command that draws
uses the next number, so draws of different commands are independent (R144, R127). -/

namespace Sys2Proof.Config

/-- `vram_init` (R290, D22): the byte at each byte address of VRAM that nothing has written since reset. DESIGN CHOICE:
log 5. -/
opaque vramInit : Nat → BitVec 8

/-- `nan_coord` for a NaN `u` (R142, R144, D10): a pixel position, taken modulo `1024 * N`. DESIGN CHOICE: log 6. -/
opaque nanCoordU : Nat → BitVec 12

/-- `nan_coord` for a NaN `v` (R143, R144, D10): a row. DESIGN CHOICE: log 6. -/
opaque nanCoordV : Nat → BitVec 9

/-- `nan_encode` for the red channel (R127, D13). DESIGN CHOICE: log 6. -/
opaque nanEncodeR : Nat → BitVec 5

/-- `nan_encode` for the green channel (R127, D13). DESIGN CHOICE: log 6. -/
opaque nanEncodeG : Nat → BitVec 5

/-- `nan_encode` for the blue channel (R127, D13). DESIGN CHOICE: log 6. -/
opaque nanEncodeB : Nat → BitVec 5

/-- `commit_pick` (R228, R232, D18): for each END_DRAW and word address, which element of the pending set is committed,
taken modulo the size of the set. DESIGN CHOICE: log 7. -/
opaque commitPick : Nat → Nat → Nat

/-- `abort_keep` (R234, D17): for each ABORT_DRAW and word address, which element of `{LIVE[a]} ∪ PEND[a]` stays, taken
modulo the size; element 0 is the pre-draw word. DESIGN CHOICE: log 7. -/
opaque abortKeep : Nat → Nat → Nat

/-- `read_pick` (R238, D19): for each VRAM_READ inside a draw, which element of `{LIVE[a]} ∪ PEND[a]` is returned, taken
modulo the size; element 0 is the word of `LIVE`. DESIGN CHOICE: log 7. -/
opaque readPick : Nat → Nat

/-- `P_par` (R270, D33): the number of fragments evaluated at once. No rule observes it, so nothing reads it: log 13. -/
opaque parallelism : Nat

end Sys2Proof.Config
end

