-- ==== Sys2Proof/Machine/State.lean ====
section
/-! DEFINITION. The state of the machine, its outcomes other than a next state, and the state right after reset. -/

namespace Sys2Proof.Machine

/-- `DS`, the draw state (R24). The fourth value of the 2-bit register is never held, so it is no constructor. -/
inductive DrawState where
  /-- 0: no draw open -/
  | idle
  /-- 1: a draw is open with a valid uniform -/
  | opened
  /-- 2: a draw is open whose BEGIN_DRAW carried an invalid colour mode -/
  | failed
deriving DecidableEq, Repr

/-- The draw uniform latch `U` (R25). -/
structure Uniform where
  mode     : BitVec 2
  textured : Bool
  tpX      : Word
  tpY      : Word
  clutX    : Word
  clutY    : Word
  modR     : F32
  modG     : F32
  modB     : F32
deriving DecidableEq, Repr

/-- A sorted list of keys and values, addresses strictly rising: the canonical form of a sparse map. -/
abbrev Sparse (α : Type) := List (Nat × α)

/-- `LIVE` (R20) as byte cells (R52): a listed byte has been written since reset; an unlisted one has not, and reads as
`Config.vramInit` (log 5). -/
abbrev Memory := List Host.Cell

/-- `PEND` (R22): by word address, the finite set of words written there, as a strictly rising list. -/
abbrev Pending := Sparse (List Word)

/-- Everything the spec gives the machine (10_state.md), the host's two channels, and the model's counter `choices`. -/
structure State where
  /-- `LIVE` (R20) -/
  live      : Memory
  /-- `PEND` (R22) -/
  pend      : Pending
  /-- `DS` (R24) -/
  ds        : DrawState
  /-- `U` (R25) -/
  u         : Uniform
  /-- sticky flag `CFG_ERR` (R27) -/
  cfgErr    : Bool
  /-- sticky flag `PROTO_ERR` (R27) -/
  protoErr  : Bool
  /-- command words delivered and not yet taken by a packet (R80, R220; log 1) -/
  stream    : List Cmd
  /-- response words returned so far, oldest first (R88, R300; log 3) -/
  responses : List Cmd
  /-- the model's own: how many commands have made a `choose` draw (R12; log 4) -/
  choices   : Nat
deriving DecidableEq, Repr

/-- The core has no fault: every packet ends in one of the four response statuses, all of them next states (R260, R264,
R267), and a word address cannot name a word outside VRAM (R148). So nothing raises a fault, and the type is empty
(log 18: safe). -/
inductive Fault where
deriving DecidableEq, Repr

/-- Why an instruction has no meaning in the model. -/
inductive Refusal where
  /-- Raised only by an arm of `exec` whose instruction has no meaning yet; no arm does. Safe: the run stops where the
  hardware goes on. -/
  | notModelled (mnemonic : String)
deriving DecidableEq, Repr

/-- Every field of `U` after reset (R290): zero, and +0.0 for the modulation factors. -/
def Uniform.reset : Uniform where
  mode     := 0#2
  textured := false
  tpX      := 0#16
  tpY      := 0#16
  clutX    := 0#16
  clutY    := 0#16
  modR     := 0x00000000#32
  modG     := 0x00000000#32
  modB     := 0x00000000#32

/-- The machine right after reset (R290). Nothing is listed in `live`, so every word of `LIVE` is `vram_init`. The stream
and the responses are empty and the counter is 0: DESIGN CHOICE, log 1, 3, 4. -/
def State.reset : State where
  live      := []
  pend      := []
  ds        := .idle
  u         := Uniform.reset
  cfgErr    := false
  protoErr  := false
  stream    := []
  responses := []
  choices   := 0

end Sys2Proof.Machine
end

