-- ==== Sys2Proof/Machine/Flags.lean ====
section
/-! DEFINITION. The core's status bits: the response word (R88, R89), the STATUS word (R28) and the path field `ctrl`
(R92). The core has no condition codes; its two sticky flags (R27) are set in Ops.lean and Draw.lean. -/

namespace Sys2Proof.Machine

/-- The four status codes a response can carry (R89). -/
inductive Status where
  | ok | discarded | cfgError | protoError
deriving DecidableEq, Repr

/-- The code `st` of a status (R89). -/
def Status.code : Status → BitVec 3
  | .ok         => 0#3
  | .discarded  => 1#3
  | .cfgError   => 2#3
  | .protoError => 3#3

/-- The response word `RSP` (R88): `data` in bits 31:16, zeros in 15:4, `tm` in bit 3, `st` in 2:0. -/
def rspWord (data : Word) (tm : Bool) (st : Status) : Cmd := data ++ 0#12 ++ BitVec.ofBool tm ++ st.code

/-- A response that carries a status only: `data` and `tm` are 0 (R88). -/
def rspStatus (st : Status) : Cmd := rspWord 0#16 false st

/-- `DS ∈ {OPEN, FAILED}` (R28, R60). -/
def DrawState.drawOpen : DrawState → Bool
  | .idle => false
  | .opened | .failed => true

/-- The `STATUS` word (R28). -/
def statusWord (s : State) : Word :=
  0#9 ++ BitVec.ofBool s.u.textured ++ s.u.mode ++ BitVec.ofBool s.protoErr ++ BitVec.ofBool s.cfgErr ++
    BitVec.ofBool (s.ds == .failed) ++ BitVec.ofBool s.ds.drawOpen

/-- `ctrl = {U.textured, U.mode}` (R92). -/
def Uniform.ctrl (u : Uniform) : BitVec 3 := BitVec.ofBool u.textured ++ u.mode

end Sys2Proof.Machine
end

