-- ==== Sys2Proof/Machine/Ops.lean ====
section
/-! DEFINITION. The named operations over the state: VRAM (R11, R50 to R56), the pending-write map (R22), the `choose`
draw (R12), returning a response (R80, R88), and the two error outcomes (R261, R262), which are the core's only
"exceptions". The core has no trap entry and no return from one (R267, R268). -/

namespace Sys2Proof.Machine

/-! ## Sparse maps in canonical form -/

/-- The value a sorted list holds at a key. -/
def sparseGet {α : Type} (k : Nat) : Sparse α → Option α
  | [] => none
  | (j, v) :: rest => if k = j then some v else sparseGet k rest

/-- The list with `v` at `k`, in place of what was there; the keys stay strictly rising. -/
def sparseSet {α : Type} (k : Nat) (v : α) : Sparse α → Sparse α
  | [] => [(k, v)]
  | (j, w) :: rest =>
    if k < j then (k, v) :: (j, w) :: rest
    else if k = j then (k, v) :: rest
    else (j, w) :: sparseSet k v rest

/-! ## VRAM -/

/-- One byte of VRAM. A byte that nothing has written since reset is `vram_init` (R290, log 5). -/
def readByte (m : Memory) (a : Nat) : BitVec 8 := (sparseGet a m).getD (Config.vramInit a)

/-- `MemRead(a, 16)` (R11): the whole word, byte `2a` in bits 7:0 and byte `2a + 1` in bits 15:8 (R52, D23). -/
def readWord (m : Memory) (a : WordAddr) : Word := readByte m (2 * a.toNat + 1) ++ readByte m (2 * a.toNat)

/-- `MemWrite(a, 16, w)` (R11, R54): the whole word. -/
def writeWord (m : Memory) (a : WordAddr) (w : Word) : Memory :=
  sparseSet (2 * a.toNat + 1) (w.extractLsb' 8 8) (sparseSet (2 * a.toNat) (w.extractLsb' 0 8) m)

/-- The canonical form of memory: byte addresses strictly rising and inside the 1 MiB of VRAM (R20). An unlisted address
holds no written value, so no entry can equal one. -/
abbrev Memory.wf (m : Memory) : Prop := (m.map Prod.fst).Pairwise (· < ·) ∧ ∀ a ∈ m.map Prod.fst, a < 2 ^ 20

/-- Every word is written whole or not at all (R51, R54): a listed byte's word is listed in both bytes. -/
abbrev Memory.whole (m : Memory) : Prop :=
  ∀ a ∈ m.map Prod.fst, 2 * (a / 2) ∈ m.map Prod.fst ∧ 2 * (a / 2) + 1 ∈ m.map Prod.fst

/-! ## Pending writes -/

/-- `PEND[a]` (R22). -/
def pendAt (p : Pending) (a : WordAddr) : List Word := (sparseGet a.toNat p).getD []

/-- A word put into a finite set of words, kept strictly rising. -/
def setInsert (w : Word) : List Word → List Word
  | [] => [w]
  | v :: rest =>
    if w.toNat < v.toNat then w :: v :: rest
    else if w = v then v :: rest
    else v :: setInsert w rest

/-- `PendWrite(a, w)` (R11): `PEND[a]` gains `w`. -/
def pendWrite (p : Pending) (a : WordAddr) (w : Word) : Pending := sparseSet a.toNat (setInsert w (pendAt p a)) p

/-- The canonical form of `PEND`: word addresses strictly rising and inside VRAM, each set non-empty and strictly
rising. -/
abbrev Pending.wf (p : Pending) : Prop :=
  (p.map Prod.fst).Pairwise (· < ·) ∧ (∀ e ∈ p, e.1 < 2 ^ 19) ∧ (∀ e ∈ p, e.2 ≠ []) ∧
    ∀ e ∈ p, (e.2.map BitVec.toNat).Pairwise (· < ·)

/-! ## Draws -/

/-- `choose(S)` (R12) for the non-empty `S = {x} ∪ xs`: the element that the draw `i` names, modulo the size of the list.
Every element is named by some `i`. -/
def choose {α : Type} (i : Nat) (x : α) (xs : List α) : α := (x :: xs).getD (i % (xs.length + 1)) x

/-- The command has drawn; the next one that draws uses the next number (log 4). -/
def State.drew (s : State) : State := { s with choices := s.choices + 1 }

/-- END_DRAW's commit at one address (R232): `MemWrite(a, 16, choose(PEND[a]))` where `PEND[a]` is not empty. -/
def commitEntry (i : Nat) (m : Memory) : Nat × List Word → Memory
  | (_, []) => m
  | (k, w :: ws) => writeWord m (BitVec.ofNat 19 k) (choose (Config.commitPick i k) w ws)

/-- END_DRAW's commit (R232). -/
def commitAll (i : Nat) (m : Memory) (p : Pending) : Memory := p.foldl (commitEntry i) m

/-- ABORT_DRAW's effect at one address (R234): `LIVE[a] <- choose({LIVE[a]} ∪ PEND[a])`, where `none` stands for the
pre-draw word, which is left as it is. -/
def abortEntry (i : Nat) (m : Memory) (e : Nat × List Word) : Memory :=
  match choose (Config.abortKeep i e.1) none (e.2.map some) with
  | none => m
  | some w => writeWord m (BitVec.ofNat 19 e.1) w

/-- ABORT_DRAW's effect on `LIVE` (R234). -/
def abortAll (i : Nat) (m : Memory) (p : Pending) : Memory := p.foldl (abortEntry i) m

/-! ## Responses and error outcomes -/

/-- Return the one response word of a command (R80, R88). -/
def State.respond (r : Cmd) (s : State) : State := { s with responses := s.responses ++ [r] }

/-- `raise ProtoError` (R262): the command is ignored as a whole; only `PROTO_ERR` is set. -/
def State.protocolError (s : State) : State := ({ s with protoErr := true }).respond (rspStatus .protoError)

/-- `raise CfgError` for a FRAGMENT of a FAILED draw (R225): nothing changes, `CFG_ERR` is already set. -/
def State.configError (s : State) : State := s.respond (rspStatus .cfgError)

/-- The host delivers words to the command stream (R80, R270). It is the only input of the machine. -/
def State.deliver (ws : List Cmd) (s : State) : State := { s with stream := s.stream ++ ws }

/-- The state inside a draw whose path field is `c`: what a BEGIN_DRAW with that tag leaves of it (R222, R223). Only the
placing of a PATH row's table word uses it (log 8). -/
def State.selectPath (c : BitVec 3) (s : State) : State :=
  if c.extractLsb' 0 2 = 3#2 then
    { s with u := { s.u with mode := 3#2, textured := c.getLsbD 2 }, cfgErr := true, ds := .failed }
  else { s with u := { s.u with mode := c.extractLsb' 0 2, textured := c.getLsbD 2 }, ds := .opened }

/-- The state in which a table word's row is the next to run: its packet in front of the stream, and inside a draw of the
row's path where the row is a PATH row (log 1, 8). -/
def State.placed (ctrl : Option (BitVec 3)) (packet : List Cmd) (s : State) : State :=
  match ctrl with
  | none => { s with stream := packet ++ s.stream }
  | some c => ({ s with stream := packet ++ s.stream }).selectPath c

end Sys2Proof.Machine
end

