-- ==== Sys2Proof/Syntax.lean ====
section
/-! DEFINITION. The syntax of the core's commands: one constructor of `Instr` per row of spec/opcode_table.json. -/

namespace Sys2Proof

/-- The payload of BEGIN_DRAW (R84): the draw uniform's fields other than `mode` and `t`, which the row fixes. -/
structure DrawIn where
  tpX   : Word
  tpY   : Word
  clutX : Word
  clutY : Word
  modR  : F32
  modG  : F32
  modB  : F32
deriving DecidableEq, Repr

/-- The payload of FRAGMENT (R85), which is the fragment input record `F` of R30. It lives only inside one command. -/
structure FragIn where
  u    : F32
  v    : F32
  r    : F32
  g    : F32
  b    : F32
  dstX : Word
  dstY : Word
deriving DecidableEq, Repr

/-- One constructor per row of the opcode table (R82, R92, R94).
The rows `fragShade0` to `pathInvalid7` are the PATH rows: what FRAGMENT does under each value of the 3-bit field
`ctrl` (R92). No packet decodes to one of them; FRAGMENT runs them (R224). -/
inductive Instr where
  | beginShade0 (d : DrawIn)
  | beginShade1 (d : DrawIn)
  | beginShade2 (d : DrawIn)
  | beginBadU (d : DrawIn)
  | beginTex4 (d : DrawIn)
  | beginTex8 (d : DrawIn)
  | beginTex15 (d : DrawIn)
  | beginBadT (d : DrawIn)
  | fragment (f : FragIn)
  | fragShade0 (f : FragIn)
  | fragShade1 (f : FragIn)
  | fragShade2 (f : FragIn)
  | pathInvalid3 (f : FragIn)
  | fragTex4 (f : FragIn)
  | fragTex8 (f : FragIn)
  | fragTex15 (f : FragIn)
  | pathInvalid7 (f : FragIn)
  | endDraw
  | abortDraw
  /-- `rsv` is `P2[31:16]`, which must be zero (R86); the meaning checks it (R221). -/
  | vramWrite (x y w rsv : Word)
  | vramRead (x y : Word)
  | readStatus
  | reserved7
  /-- Any header that no exact row matches (R94), with the payload words its `op` gives it (R96). -/
  | illegal (header : Cmd) (payload : List Cmd)
deriving DecidableEq, Repr

end Sys2Proof
end

