-- ==== Sys2Proof/Machine/Draw.lean ====
section
/-! DEFINITION. BEGIN_DRAW (R222, R223, R241), END_DRAW (R230 to R232) and ABORT_DRAW (R233, R234). -/

namespace Sys2Proof.Machine

/-- The uniform that a BEGIN_DRAW latches, every field of it (R25, R26). -/
def latch (mode : BitVec 2) (textured : Bool) (d : DrawIn) : Uniform where
  mode     := mode
  textured := textured
  tpX      := d.tpX
  tpY      := d.tpY
  clutX    := d.clutX
  clutY    := d.clutY
  modR     := d.modR
  modG     := d.modG
  modB     := d.modB

/-- BEGIN_DRAW with a valid tag (R222), or a protocol error while a draw is open (R241). -/
def beginDraw (mode : BitVec 2) (textured : Bool) (d : DrawIn) (s : State) : State :=
  match s.ds with
  | .idle => ({ s with u := latch mode textured d, pend := [], ds := .opened }).respond (rspStatus .ok)
  | .opened | .failed => s.protocolError

/-- BEGIN_DRAW with the unrecognised tag 3 (R223, R261), or a protocol error while a draw is open (R241). -/
def beginFailed (textured : Bool) (d : DrawIn) (s : State) : State :=
  match s.ds with
  | .idle => ({ s with u := latch 3#2 textured d, cfgErr := true, ds := .failed }).respond (rspStatus .cfgError)
  | .opened | .failed => s.protocolError

/-- BEGIN_DRAW, header 0x00000000. -/
def execBeginShade0 (d : DrawIn) (s : State) : Host.Outcome State Fault Refusal := .next (beginDraw 0#2 false d s)

/-- BEGIN_DRAW, header 0x00000008. -/
def execBeginShade1 (d : DrawIn) (s : State) : Host.Outcome State Fault Refusal := .next (beginDraw 1#2 false d s)

/-- BEGIN_DRAW, header 0x00000010. -/
def execBeginShade2 (d : DrawIn) (s : State) : Host.Outcome State Fault Refusal := .next (beginDraw 2#2 false d s)

/-- BEGIN_DRAW, header 0x00000018. -/
def execBeginBadU (d : DrawIn) (s : State) : Host.Outcome State Fault Refusal := .next (beginFailed false d s)

/-- BEGIN_DRAW, header 0x00000020. -/
def execBeginTex4 (d : DrawIn) (s : State) : Host.Outcome State Fault Refusal := .next (beginDraw 0#2 true d s)

/-- BEGIN_DRAW, header 0x00000028. -/
def execBeginTex8 (d : DrawIn) (s : State) : Host.Outcome State Fault Refusal := .next (beginDraw 1#2 true d s)

/-- BEGIN_DRAW, header 0x00000030. -/
def execBeginTex15 (d : DrawIn) (s : State) : Host.Outcome State Fault Refusal := .next (beginDraw 2#2 true d s)

/-- BEGIN_DRAW, header 0x00000038. -/
def execBeginBadT (d : DrawIn) (s : State) : Host.Outcome State Fault Refusal := .next (beginFailed true d s)

/-- END_DRAW: a protocol error in IDLE (R230), the close of a FAILED draw (R231), and the commit of an OPEN one (R232). -/
def execEndDraw (s : State) : Host.Outcome State Fault Refusal :=
  match s.ds with
  | .idle => .next s.protocolError
  | .failed => .next (({ s with ds := .idle }).respond (rspStatus .ok))
  | .opened =>
    .next (({ s.drew with live := commitAll s.choices s.live s.pend, pend := [], ds := .idle }).respond
      (rspStatus .ok))

/-- ABORT_DRAW: a protocol error in IDLE (R233), and the close of an OPEN or FAILED draw (R234). -/
def execAbortDraw (s : State) : Host.Outcome State Fault Refusal :=
  match s.ds with
  | .idle => .next s.protocolError
  | .opened | .failed =>
    .next (({ s.drew with live := abortAll s.choices s.live s.pend, pend := [], ds := .idle }).respond
      (rspStatus .ok))

end Sys2Proof.Machine
end

