-- ==== Sys2Proof/Decode.lean ====
section
/-! DEFINITION. The packet decoder (R80 to R87, R94, R96), the path decoder (R92), the encoder of both, and
`decodeTableWord`. The decoder is total: it reads a packet from any list of words, or says by name that no whole packet
stands there. -/

namespace Sys2Proof

/-- Why no packet can be read from the stream. Neither is an error of the core (R272): it waits. -/
inductive DecodeError where
  /-- no word is there -/
  | noHeader
  /-- the header is there and `missing` payload words are not -/
  | truncated (missing : Nat)
deriving DecidableEq, Repr

/-- The packet length in words, a function of `H[2:0]` alone (R82, R96). -/
def packetLen (h : Cmd) : Nat :=
  match (h.extractLsb' 0 3).toNat with
  | 0 => 6
  | 1 => 7
  | 4 => 3
  | 5 => 2
  | _ => 1

/-- Payload word `P<k+1>` (R83). -/
def payloadWord (ps : List Cmd) (k : Nat) : Cmd := ps.getD k 0#32

/-- The low half of a 16-bit pair (R83). -/
def pairLo (w : Cmd) : Word := w.extractLsb' 0 16

/-- The high half of a 16-bit pair (R83). -/
def pairHi (w : Cmd) : Word := w.extractLsb' 16 16

/-- The pair `{hi, lo}` (R83). -/
def pair (hi lo : Word) : Cmd := hi ++ lo

/-- BEGIN_DRAW's payload (R84). -/
def decodeDrawIn (ps : List Cmd) : DrawIn where
  tpX   := pairLo (payloadWord ps 0)
  tpY   := pairHi (payloadWord ps 0)
  clutX := pairLo (payloadWord ps 1)
  clutY := pairHi (payloadWord ps 1)
  modR  := payloadWord ps 2
  modG  := payloadWord ps 3
  modB  := payloadWord ps 4

/-- FRAGMENT's payload (R85). -/
def decodeFragIn (ps : List Cmd) : FragIn where
  u    := payloadWord ps 0
  v    := payloadWord ps 1
  r    := payloadWord ps 2
  g    := payloadWord ps 3
  b    := payloadWord ps 4
  dstX := pairLo (payloadWord ps 5)
  dstY := pairHi (payloadWord ps 5)

/-- One whole packet: the exact rows first, the catch-all ILLEGAL row after them (R94). -/
def decodePacket (h : Cmd) (ps : List Cmd) : Instr :=
  if h = 0x00000000#32 then .beginShade0 (decodeDrawIn ps)
  else if h = 0x00000008#32 then .beginShade1 (decodeDrawIn ps)
  else if h = 0x00000010#32 then .beginShade2 (decodeDrawIn ps)
  else if h = 0x00000018#32 then .beginBadU (decodeDrawIn ps)
  else if h = 0x00000020#32 then .beginTex4 (decodeDrawIn ps)
  else if h = 0x00000028#32 then .beginTex8 (decodeDrawIn ps)
  else if h = 0x00000030#32 then .beginTex15 (decodeDrawIn ps)
  else if h = 0x00000038#32 then .beginBadT (decodeDrawIn ps)
  else if h = 0x00000001#32 then .fragment (decodeFragIn ps)
  else if h = 0x00000002#32 then .endDraw
  else if h = 0x00000003#32 then .abortDraw
  else if h = 0x00000004#32 then
    .vramWrite (pairLo (payloadWord ps 0)) (pairHi (payloadWord ps 0))
      (pairLo (payloadWord ps 1)) (pairHi (payloadWord ps 1))
  else if h = 0x00000005#32 then .vramRead (pairLo (payloadWord ps 0)) (pairHi (payloadWord ps 0))
  else if h = 0x00000006#32 then .readStatus
  else if h = 0x00000007#32 then .reserved7
  else .illegal h ps

/-- The first packet of a word list and the words after it (R96, R220). -/
def decode : List Cmd → Except DecodeError (Instr × List Cmd)
  | [] => .error .noHeader
  | h :: ps =>
    if ps.length < packetLen h - 1 then .error (.truncated (packetLen h - 1 - ps.length))
    else .ok (decodePacket h (ps.take (packetLen h - 1)), ps.drop (packetLen h - 1))

/-- The path field `ctrl` (R92) as the eight PATH rows of the opcode table. -/
inductive Path where
  | shade0 | shade1 | shade2 | invalid3 | tex4 | tex8 | tex15 | invalid7
deriving DecidableEq, Repr

/-- The color_mode_dispatcher's decoding of `ctrl = {U.textured, U.mode}` (R92, R161). -/
def decodePath (ctrl : BitVec 3) : Path :=
  match ctrl.toNat with
  | 0 => .shade0
  | 1 => .shade1
  | 2 => .shade2
  | 3 => .invalid3
  | 4 => .tex4
  | 5 => .tex8
  | 6 => .tex15
  | _ => .invalid7

/-- The row that a FRAGMENT with operands `f` runs on a path (R224). -/
def Path.row (f : FragIn) : Path → Instr
  | .shade0   => .fragShade0 f
  | .shade1   => .fragShade1 f
  | .shade2   => .fragShade2 f
  | .invalid3 => .pathInvalid3 f
  | .tex4     => .fragTex4 f
  | .tex8     => .fragTex8 f
  | .tex15    => .fragTex15 f
  | .invalid7 => .pathInvalid7 f

/-- The reading of the opcode table's PATH rows: a FRAGMENT packet together with a `ctrl` field names a PATH row (R92);
every other packet reads as it does without one. -/
def decodeUnder (ctrl : Option (BitVec 3)) (ws : List Cmd) : Except DecodeError (Instr × List Cmd) :=
  match ctrl, decode ws with
  | some c, .ok (.fragment f, rest) => .ok ((decodePath c).row f, rest)
  | _, r => r

/-- BEGIN_DRAW's payload words (R84). -/
def encodeDrawIn (d : DrawIn) : List Cmd :=
  [pair d.tpY d.tpX, pair d.clutY d.clutX, d.modR, d.modG, d.modB]

/-- A FRAGMENT packet (R85). -/
def encodeFragment (f : FragIn) : List Cmd :=
  [0x00000001#32, f.u, f.v, f.r, f.g, f.b, pair f.dstY f.dstX]

/-- The words of a command's packet (R81 to R87). A PATH row's packet is FRAGMENT's (R204 to R207, "Encoding"). -/
def encode : Instr → List Cmd
  | .beginShade0 d  => 0x00000000#32 :: encodeDrawIn d
  | .beginShade1 d  => 0x00000008#32 :: encodeDrawIn d
  | .beginShade2 d  => 0x00000010#32 :: encodeDrawIn d
  | .beginBadU d    => 0x00000018#32 :: encodeDrawIn d
  | .beginTex4 d    => 0x00000020#32 :: encodeDrawIn d
  | .beginTex8 d    => 0x00000028#32 :: encodeDrawIn d
  | .beginTex15 d   => 0x00000030#32 :: encodeDrawIn d
  | .beginBadT d    => 0x00000038#32 :: encodeDrawIn d
  | .fragment f     => encodeFragment f
  | .fragShade0 f   => encodeFragment f
  | .fragShade1 f   => encodeFragment f
  | .fragShade2 f   => encodeFragment f
  | .pathInvalid3 f => encodeFragment f
  | .fragTex4 f     => encodeFragment f
  | .fragTex8 f     => encodeFragment f
  | .fragTex15 f    => encodeFragment f
  | .pathInvalid7 f => encodeFragment f
  | .endDraw        => [0x00000002#32]
  | .abortDraw      => [0x00000003#32]
  | .vramWrite x y w rsv => [0x00000004#32, pair y x, pair rsv w]
  | .vramRead x y   => [0x00000005#32, pair y x]
  | .readStatus     => [0x00000006#32]
  | .reserved7      => [0x00000007#32]
  | .illegal h ps   => h :: ps

/-- The `ctrl` field of a PATH row (R92, the rows' "encoding"); `none` for a command. -/
def encodeCtrl : Instr → Option (BitVec 3)
  | .fragShade0 _   => some 0b000#3
  | .fragShade1 _   => some 0b001#3
  | .fragShade2 _   => some 0b010#3
  | .pathInvalid3 _ => some 0b011#3
  | .fragTex4 _     => some 0b100#3
  | .fragTex8 _     => some 0b101#3
  | .fragTex15 _    => some 0b110#3
  | .pathInvalid7 _ => some 0b111#3
  | .beginShade0 _ | .beginShade1 _ | .beginShade2 _ | .beginBadU _ | .beginTex4 _ | .beginTex8 _ | .beginTex15 _
  | .beginBadT _ | .fragment _ | .endDraw | .abortDraw | .vramWrite _ _ _ _ | .vramRead _ _ | .readStatus
  | .reserved7 | .illegal _ _ => none

/-- Word `k` of an instruction given as one number whose bit 0 is the least significant bit of the first word. -/
def tableWord (nbits w k : Nat) : Cmd := BitVec.ofNat 32 ((w % 2 ^ nbits) >>> (32 * k))

/-- The `ctrl` field that a table word of a PATH row gives. The table gives those rows 3 bits, which is less than a
command word, and gives every other row at least one word (log 8). -/
def tableCtrl (nbits w : Nat) : Option (BitVec 3) :=
  if nbits < 32 then some (BitVec.ofNat 3 (w % 2 ^ nbits)) else none

/-- The packet a table word stands for: its header and the payload words that the header's `op` asks for (R96), the
bits above `nbits` zero. A PATH row's packet is FRAGMENT's (R204 to R207, "Encoding"), its operands zero. -/
def tablePacket (nbits w : Nat) : List Cmd :=
  match tableCtrl nbits w with
  | some _ => [0x00000001#32, 0#32, 0#32, 0#32, 0#32, 0#32, 0#32]
  | none => (List.range (packetLen (tableWord nbits w 0))).map (tableWord nbits w)

/-- The instruction the decoder reads from a table word; `none` where it refuses. -/
def decodeTableWord (nbits w : Nat) : Option Instr :=
  match decodeUnder (tableCtrl nbits w) (tablePacket nbits w) with
  | .ok (i, _) => some i
  | .error _ => none

end Sys2Proof
end

