-- ==== Sys2Proof/Machine/Float.lean ====
section
/-! DEFINITION. Binary32 arithmetic (R10, D12): the value of a bit pattern as an exact rational, correctly rounded
division and multiplication (to nearest, ties to even, subnormals kept), comparison, clamp and truncation. The meaning of
the bit patterns is IEEE-754's, as R10 says. -/

namespace Sys2Proof.Machine

/-- The value of a binary32 bit pattern. Every finite value is `± num / 2 ^ 149`, exactly (R10, `real(x)`). -/
inductive FloatVal where
  | nan
  | inf (neg : Bool)
  | fin (neg : Bool) (num : Nat)
deriving DecidableEq, Repr

/-- The sign bit. -/
def f32Sign (x : F32) : Bool := x.getLsbD 31

/-- The biased exponent field, bits 30:23. -/
def f32Exp (x : F32) : Nat := (x.extractLsb' 23 8).toNat

/-- The fraction field, bits 22:0. -/
def f32Frac (x : F32) : Nat := (x.extractLsb' 0 23).toNat

/-- The value of a binary32 bit pattern (R10, IEEE-754): exponent field 255 is infinite or NaN, 0 is subnormal or zero. -/
def floatVal (x : F32) : FloatVal :=
  if f32Exp x = 255 then
    if f32Frac x = 0 then .inf (f32Sign x) else .nan
  else if f32Exp x = 0 then .fin (f32Sign x) (f32Frac x)
  else .fin (f32Sign x) ((2 ^ 23 + f32Frac x) * 2 ^ (f32Exp x - 1))

/-- `isNaN(x)` (R10). -/
def isNaN (x : F32) : Bool :=
  match floatVal x with
  | .nan => true
  | .inf _ | .fin _ _ => false

/-- `n / d` rounded to the nearest integer, ties to even. `d` is positive where it is used. -/
def roundNearestEven (n d : Nat) : Nat :=
  if 2 * (n % d) < d then n / d
  else if 2 * (n % d) = d then n / d + n / d % 2
  else n / d + 1

/-- The exponent `e + 149` of the unit in the last place of `n / d`, where `2 ^ e` is that unit: the significand has 24
bits, and the unit is never below `2 ^ -149`, the subnormal unit. -/
def ulpExp (n d : Nat) : Nat :=
  let est := Nat.log2 n + 150 - Nat.log2 d
  -- `est - 150` is the exponent of `n / d`, or one more than it
  let e := if n * 2 ^ 150 < d * 2 ^ est then est - 1 else est
  e - 24

/-- The magnitude bits of `n / d` rounded to binary32, to nearest with ties to even (R10). A value that rounds past the
largest finite one is infinite. `e` is the unit's exponent plus 149, and the significand's carry into bit 23 or 24 counts
up the exponent field by itself. -/
def roundMagnitude (n d : Nat) : Nat :=
  if n = 0 then 0
  else
    let e := ulpExp n d
    min (e * 2 ^ 23 + roundNearestEven (n * 2 ^ 149) (d * 2 ^ e)) 0x7F800000

/-- A sign and magnitude bits as a binary32 pattern. -/
def signed (neg : Bool) (mag : Nat) : F32 := BitVec.ofBool neg ++ BitVec.ofNat 31 mag

/-- `± n / d` rounded to binary32 (R10). -/
def roundF32 (neg : Bool) (n d : Nat) : F32 := signed neg (roundMagnitude n d)

/-- The infinity of a sign. -/
def infF32 (neg : Bool) : F32 := signed neg 0x7F800000

/-- The NaN that an invalid operation gives. Its payload is open in the spec and cannot be observed: DESIGN CHOICE,
log 11. -/
def quietNaN : F32 := 0x7FC00000#32

/-- `fmul32(a, b)`: binary32 multiplication, rounded to nearest even (R10, D12). -/
def fmul32 (a b : F32) : F32 :=
  match floatVal a, floatVal b with
  | .nan, _ => quietNaN
  | _, .nan => quietNaN
  | .inf s, .inf t => infF32 (s ^^ t)
  | .inf s, .fin t n => if n = 0 then quietNaN else infF32 (s ^^ t)
  | .fin s m, .inf t => if m = 0 then quietNaN else infF32 (s ^^ t)
  | .fin s m, .fin t n => roundF32 (s ^^ t) (m * n) (2 ^ 149 * 2 ^ 149)

/-- `fdiv32(a, b)`: binary32 division, rounded to nearest even (R10, D12). The core divides only by 31.0 (R120). -/
def fdiv32 (a b : F32) : F32 :=
  match floatVal a, floatVal b with
  | .nan, _ => quietNaN
  | _, .nan => quietNaN
  | .inf _, .inf _ => quietNaN
  | .inf s, .fin t _ => infF32 (s ^^ t)
  | .fin s _, .inf t => signed (s ^^ t) 0
  | .fin s m, .fin t n =>
    if n = 0 then if m = 0 then quietNaN else infF32 (s ^^ t)
    else roundF32 (s ^^ t) m n

/-- `f32(k)`: the binary32 value of an unsigned integer (R120), exact below `2 ^ 24`. -/
def f32OfNat (k : Nat) : F32 := roundF32 false k 1

/-- The order key of a non-NaN value: its magnitude bits with its sign, so that `-0.0` and `+0.0` are equal (R124,
I23). -/
def f32Key (x : F32) : Int :=
  if f32Sign x then -((x.extractLsb' 0 31).toNat : Int) else ((x.extractLsb' 0 31).toNat : Int)

/-- `a < b` on binary32 values; false where one is NaN. -/
def flt32 (a b : F32) : Bool := !isNaN a && !isNaN b && decide (f32Key a < f32Key b)

/-- `clamp(x, lo, hi)` on binary32 values (R10). -/
def fclamp32 (x lo hi : F32) : F32 := if flt32 x lo then lo else if flt32 hi x then hi else x

/-- `trunc(x)`: a finite value rounded toward zero (R10). ENCODE uses it on finite values only (R123). -/
def ftrunc (x : F32) : Int :=
  match floatVal x with
  | .nan | .inf _ => 0
  | .fin neg n => if neg then -((n / 2 ^ 149 : Nat) : Int) else ((n / 2 ^ 149 : Nat) : Int)

/-- `floor(real(x) * k)` for a finite value `± n / 2 ^ 149`: exact rational arithmetic (R10, R142). -/
def floorScaled (neg : Bool) (n k : Nat) : Int :=
  (if neg then -((n * k : Nat) : Int) else ((n * k : Nat) : Int)) / ((2 ^ 149 : Nat) : Int)

end Sys2Proof.Machine
end

