-- ==== Sys2Proof/Machine/Codec.lean ====
section
/-! DEFINITION. The pixel_codec (R120 to R128) and the modulation step between its two halves (R200). -/

namespace Sys2Proof.Machine

/-- A colour triple (R13). -/
structure Rgb where
  r : F32
  g : F32
  b : F32
deriving DecidableEq, Repr

/-- The binary32 value 31.0, DECODE's divisor (R120). -/
def f32ThirtyOne : F32 := 0x41F80000#32

/-- The binary32 value 1.0. -/
def f32One : F32 := 0x3F800000#32

/-- `S`, the binary32 value nearest 31.999 (R7, R123). -/
def encScale : F32 := 0x41FFFDF4#32

/-- One channel of DECODE (R120). -/
def decodeChannel (k : BitVec 5) : F32 := fdiv32 (f32OfNat k.toNat) f32ThirtyOne

/-- The colour part of DECODE (R91, R120): red in bits 4:0, green in 9:5, blue in 14:10. -/
def decodeRgb (w : Word) : Rgb where
  r := decodeChannel (w.extractLsb' 0 5)
  g := decodeChannel (w.extractLsb' 5 5)
  b := decodeChannel (w.extractLsb' 10 5)

/-- The mask part of DECODE (R120): bit 15. -/
def maskBit (w : Word) : Bool := w.getLsbD 15

/-- `q(c)` for a channel that is not a NaN (R123): clamp to [0, 1], scale by `S`, truncate. -/
def quantize (c : F32) : BitVec 5 := BitVec.ofInt 5 (ftrunc (fmul32 (fclamp32 c 0x00000000#32 f32One) encScale))

/-- `q(c)` (R123), with `pick` the value of the draw `nan_encode` that a NaN channel takes (R127). -/
def encodeChannel (pick : BitVec 5) (c : F32) : BitVec 5 := if isNaN c then pick else quantize c

/-- ENCODE (R123): `{m, q(b), q(g), q(r)}`. `i` numbers the draws `nan_encode`, one for each channel (R127). -/
def encodeColour (i : Nat) (c : Rgb) (m : Bool) : Word :=
  BitVec.ofBool m ++ encodeChannel (Config.nanEncodeB i) c.b ++ encodeChannel (Config.nanEncodeG i) c.g ++
    encodeChannel (Config.nanEncodeR i) c.r

/-- MODULATE (R200): channel-wise, with no clamp. -/
def modulate (c factor : Rgb) : Rgb where
  r := fmul32 c.r factor.r
  g := fmul32 c.g factor.g
  b := fmul32 c.b factor.b

end Sys2Proof.Machine
end

