-- ==== Sys2Proof/Machine/Operands.lean ====
section
/-! DEFINITION. How a command's operands become VRAM addresses and table indices: the clamps (R55), the
texel_address_unit's ADDR (R142, R143), EXTRACT4 and EXTRACT8 (R163, R164), the CLUT address (R181) and the destination and
host-port address (R208, R235, R237). -/

namespace Sys2Proof.Machine

/-- `wa(x, y) = y * 1024 + x`, which is `{row, col}` (R11, R50, R148). -/
def wa (x : BitVec 10) (y : BitVec 9) : WordAddr := y ++ x

/-- `clamp(x, lo, hi)` on integers (R10). -/
def clampInt (x lo hi : Int) : Int := if x < lo then lo else if hi < x then hi else x

/-- A column clamped into 0..1023 (R55). -/
def clampCol (x : Int) : BitVec 10 := BitVec.ofInt 10 (clampInt x 0 1023)

/-- A row clamped into 0..511 (R55). -/
def clampRow (y : Int) : BitVec 9 := BitVec.ofInt 9 (clampInt y 0 511)

/-- The word that a pair of 16-bit unsigned coordinates names after the clamp (R208, R235, R237). -/
def clampedAddr (x y : Word) : WordAddr := wa (clampCol x.toNat) (clampRow y.toNat)

/-- The pixel position `px` of ADDR, in 0..1024 * N - 1 (R142). `i` numbers the draw `nan_coord`. -/
def pixelPos (i n : Nat) (u : F32) : Nat :=
  match floatVal u with
  | .nan => (Config.nanCoordU i).toNat % (1024 * n)
  | .inf neg => if neg then 0 else 1024 * n - 1
  | .fin neg m => (clampInt (floorScaled neg m (1024 * n)) 0 ((1024 * n : Nat) - 1)).toNat

/-- The word column of a pixel position, `px div N` (R142). -/
def texelCol (i n : Nat) (u : F32) : BitVec 10 := BitVec.ofNat 10 (pixelPos i n u / n)

/-- The sub-word index of a pixel position, `px mod N` (R142). -/
def texelSub (i n : Nat) (u : F32) : BitVec 2 := BitVec.ofNat 2 (pixelPos i n u % n)

/-- The row of ADDR (R143). `i` numbers the draw `nan_coord`. -/
def texelRow (i : Nat) (v : F32) : BitVec 9 :=
  match floatVal v with
  | .nan => Config.nanCoordV i
  | .inf neg => if neg then 0#9 else 511#9
  | .fin neg m => clampRow (floorScaled neg m 512)

/-- The address of the texel word (R145). The texture page base takes no part in it (R141, D7). -/
def texelAddr (i n : Nat) (f : FragIn) : WordAddr := wa (texelCol i n f.u) (texelRow i f.v)

/-- EXTRACT4 (R163). -/
def extract4 (t : Word) (sub : BitVec 2) : Nat := ((t >>> (sub.toNat * 4)) &&& 0x000F#16).toNat

/-- EXTRACT8 (R164). -/
def extract8 (t : Word) (sub : BitVec 2) : Nat := ((t >>> (sub.toNat * 8)) &&& 0x00FF#16).toNat

/-- The address of a CLUT entry (R181): the sum does not wrap and the row never advances. -/
def clutAddr (u : Uniform) (idx : Nat) : WordAddr :=
  wa (clampCol ((u.clutX.toNat + idx : Nat) : Int)) (clampRow u.clutY.toNat)

end Sys2Proof.Machine
end

