-- ==== Sys2Proof/Machine/Fragment.lean ====
section
/-! DEFINITION. FRAGMENT (R224 to R226) and the eight PATH rows it runs (R92, R204 to R207, R223, R225). -/

namespace Sys2Proof.Machine

/-- What a fragment path yields: `none` for a discard (R184), or the output word and the response bit `tm` (R210). -/
abbrev Pixel := Option (Word × Bool)

/-- The modulation triple of `U` (R25). -/
def Uniform.modulation (u : Uniform) : Rgb := ⟨u.modR, u.modG, u.modB⟩

/-- DECODE, MODULATE and ENCODE of a resolved colour `C`; the mask bit of `C` is passed through (R200, R202). -/
def tint (s : State) (c : Word) : Word × Bool :=
  (encodeColour s.choices (modulate (decodeRgb c) s.u.modulation) (maskBit c), maskBit c)

/-- The texel word `T` (R145), read from the draw's read view, which is `LIVE` (R21, R59). -/
def texelWord (s : State) (n : Nat) (f : FragIn) : Word := readWord s.live (texelAddr s.choices n f)

/-- The clut_lookup_engine and what follows it (R182, R184, R187): an entry of 0x0000 is discarded before DECODE and
modulation run. -/
def indexedPixel (s : State) (idx : Nat) : Pixel :=
  let c := readWord s.live (clutAddr s.u idx)
  if c = 0x0000#16 then none else some (tint s c)

/-- FRAG.TEX4's pixel (R204). -/
def tex4Pixel (s : State) (f : FragIn) : Pixel :=
  indexedPixel s (extract4 (texelWord s 4 f) (texelSub s.choices 4 f.u))

/-- FRAG.TEX8's pixel (R205). -/
def tex8Pixel (s : State) (f : FragIn) : Pixel :=
  indexedPixel s (extract8 (texelWord s 2 f) (texelSub s.choices 2 f.u))

/-- FRAG.TEX15's pixel (R206): the texel word is the colour, and nothing is discarded (R162, R186). -/
def tex15Pixel (s : State) (f : FragIn) : Pixel := some (tint s (texelWord s 1 f))

/-- FRAG.SHADE's pixel (R207): the vertex colour, with no modulation, mask 0 and no VRAM read (R166, R202). -/
def shadePixel (s : State) (f : FragIn) : Pixel := some (encodeColour s.choices ⟨f.r, f.g, f.b⟩ false, false)

/-- The end of a fragment path (R184, R208, R209, R210): a discard, or one pending write at the clamped destination. -/
def finishPixel (f : FragIn) (p : Pixel) (s : State) : State :=
  match p with
  | none => s.drew.respond (rspStatus .discarded)
  | some (out, tm) =>
    ({ s.drew with pend := pendWrite s.pend (clampedAddr f.dstX f.dstY) out }).respond (rspWord out tm .ok)

/-- A FRAGMENT packet taken on one path: a protocol error with no draw open (R226), CFG_ERROR in a FAILED draw (R225),
and the path in an OPEN draw (R224). -/
def onPath (path : State → State) (s : State) : State :=
  match s.ds with
  | .idle => s.protocolError
  | .failed => s.configError
  | .opened => path s

/-- FRAG.SHADE with `ctrl` 0b000 (R207). -/
def execFragShade0 (f : FragIn) (s : State) : Host.Outcome State Fault Refusal :=
  .next (onPath (fun s => finishPixel f (shadePixel s f) s) s)

/-- FRAG.SHADE with `ctrl` 0b001 (R207); the mode is not used. -/
def execFragShade1 (f : FragIn) (s : State) : Host.Outcome State Fault Refusal :=
  .next (onPath (fun s => finishPixel f (shadePixel s f) s) s)

/-- FRAG.SHADE with `ctrl` 0b010 (R207); the mode is not used. -/
def execFragShade2 (f : FragIn) (s : State) : Host.Outcome State Fault Refusal :=
  .next (onPath (fun s => finishPixel f (shadePixel s f) s) s)

/-- PATH.INVALID with `ctrl` 0b011 (R92, R223, R225): the draw is FAILED, and its FRAGMENT returns CFG_ERROR. In an OPEN
draw, where the path cannot occur (R161), the answer is the same: DESIGN CHOICE, log 8. -/
def execPathInvalid3 (_f : FragIn) (s : State) : Host.Outcome State Fault Refusal :=
  .next (onPath State.configError s)

/-- FRAG.TEX4, `ctrl` 0b100 (R204). -/
def execFragTex4 (f : FragIn) (s : State) : Host.Outcome State Fault Refusal :=
  .next (onPath (fun s => finishPixel f (tex4Pixel s f) s) s)

/-- FRAG.TEX8, `ctrl` 0b101 (R205). -/
def execFragTex8 (f : FragIn) (s : State) : Host.Outcome State Fault Refusal :=
  .next (onPath (fun s => finishPixel f (tex8Pixel s f) s) s)

/-- FRAG.TEX15, `ctrl` 0b110 (R206). -/
def execFragTex15 (f : FragIn) (s : State) : Host.Outcome State Fault Refusal :=
  .next (onPath (fun s => finishPixel f (tex15Pixel s f) s) s)

/-- PATH.INVALID with `ctrl` 0b111 (R92, R223, R225), as `execPathInvalid3`: log 8. -/
def execPathInvalid7 (_f : FragIn) (s : State) : Host.Outcome State Fault Refusal :=
  .next (onPath State.configError s)

/-- FRAGMENT (R224): the dispatcher selects the path from `ctrl` (R161), and FRAG.<path> runs. R226 and R225 where no
OPEN draw is there. -/
def execFragment (f : FragIn) (s : State) : Host.Outcome State Fault Refusal :=
  match s.ds with
  | .idle => .next s.protocolError
  | .failed => .next s.configError
  | .opened =>
    match decodePath s.u.ctrl with
    | .shade0   => execFragShade0 f s
    | .shade1   => execFragShade1 f s
    | .shade2   => execFragShade2 f s
    | .invalid3 => execPathInvalid3 f s
    | .tex4     => execFragTex4 f s
    | .tex8     => execFragTex8 f s
    | .tex15    => execFragTex15 f s
    | .invalid7 => execPathInvalid7 f s

end Sys2Proof.Machine
end

