-- ==== Sys2Proof/Machine/HostPort.lean ====
section
/-! DEFINITION. The host port commands VRAM_WRITE (R221, R235, R236), VRAM_READ (R237, R238), READ_STATUS (R239), and the
two rows that are protocol errors whatever the state: reserved opcode 7 (R240) and ILLEGAL (R221). -/

namespace Sys2Proof.Machine

/-- VRAM_WRITE. The reserved half of `P2` is checked first (R221, R266), then the draw state (R236), then the word is
written (R235). -/
def execVramWrite (x y w rsv : Word) (s : State) : Host.Outcome State Fault Refusal :=
  if rsv = 0#16 then
    match s.ds with
    | .idle => .next (({ s with live := writeWord s.live (clampedAddr x y) w }).respond (rspStatus .ok))
    | .opened | .failed => .next s.protocolError
  else .next s.protocolError

/-- VRAM_READ: the word of `LIVE` with no draw open (R237); inside a draw, that word or one pending there (R238). -/
def execVramRead (x y : Word) (s : State) : Host.Outcome State Fault Refusal :=
  let a := clampedAddr x y
  match s.ds with
  | .idle => .next (s.respond (rspWord (readWord s.live a) false .ok))
  | .opened | .failed =>
    .next (s.drew.respond
      (rspWord (choose (Config.readPick s.choices) (readWord s.live a) (pendAt s.pend a)) false .ok))

/-- READ_STATUS (R239): allowed in any state, clears nothing. -/
def execReadStatus (s : State) : Host.Outcome State Fault Refusal :=
  .next (s.respond (rspWord (statusWord s) false .ok))

/-- Reserved opcode 7 (R240). -/
def execReserved7 (s : State) : Host.Outcome State Fault Refusal := .next s.protocolError

/-- A header with a reserved bit set (R221): the payload has been consumed and is ignored. -/
def execIllegal (_header : Cmd) (_payload : List Cmd) (s : State) : Host.Outcome State Fault Refusal :=
  .next s.protocolError

end Sys2Proof.Machine
end

