-- ==== Sys2Proof/Machine/Dispatch.lean ====
section
/-! DEFINITION. The meaning of each instruction, one arm per row of the opcode table. -/

namespace Sys2Proof.Machine

def exec (i : Instr) (s : State) : Host.Outcome State Fault Refusal :=
  match i with
  | .beginShade0 d => Sys2Proof.Machine.execBeginShade0 d s
  | .beginShade1 d => Sys2Proof.Machine.execBeginShade1 d s
  | .beginShade2 d => Sys2Proof.Machine.execBeginShade2 d s
  | .beginBadU d => Sys2Proof.Machine.execBeginBadU d s
  | .beginTex4 d => Sys2Proof.Machine.execBeginTex4 d s
  | .beginTex8 d => Sys2Proof.Machine.execBeginTex8 d s
  | .beginTex15 d => Sys2Proof.Machine.execBeginTex15 d s
  | .beginBadT d => Sys2Proof.Machine.execBeginBadT d s
  | .fragment f => Sys2Proof.Machine.execFragment f s
  | .fragShade0 f => Sys2Proof.Machine.execFragShade0 f s
  | .fragShade1 f => Sys2Proof.Machine.execFragShade1 f s
  | .fragShade2 f => Sys2Proof.Machine.execFragShade2 f s
  | .pathInvalid3 f => Sys2Proof.Machine.execPathInvalid3 f s
  | .fragTex4 f => Sys2Proof.Machine.execFragTex4 f s
  | .fragTex8 f => Sys2Proof.Machine.execFragTex8 f s
  | .fragTex15 f => Sys2Proof.Machine.execFragTex15 f s
  | .pathInvalid7 f => Sys2Proof.Machine.execPathInvalid7 f s
  | .endDraw => Sys2Proof.Machine.execEndDraw s
  | .abortDraw => Sys2Proof.Machine.execAbortDraw s
  | .vramWrite x y w rsv => Sys2Proof.Machine.execVramWrite x y w rsv s
  | .vramRead x y => Sys2Proof.Machine.execVramRead x y s
  | .readStatus => Sys2Proof.Machine.execReadStatus s
  | .reserved7 => Sys2Proof.Machine.execReserved7 s
  | .illegal header payload => Sys2Proof.Machine.execIllegal header payload s

end Sys2Proof.Machine
end

