-- ==== Sys2Proof/Machine/Step.lean ====
section
/-! DEFINITION. One step of the machine: take the next packet of the command stream and execute it (R220). -/

namespace Sys2Proof.Machine

/-- One step (R220, R300): the packet leaves the stream and its command runs. With no whole packet in the stream the core
is idle and keeps all state (R272): DESIGN CHOICE for an incomplete packet, log 2. -/
def step (s : State) : Host.Outcome State Fault Refusal :=
  match decode s.stream with
  | .ok (i, rest) => exec i { s with stream := rest }
  | .error _ => .next s

/-- The state whose next step runs the row of a table word (log 1, 8). -/
def State.withFetchWord (s : State) (nbits w : Nat) : State := s.placed (tableCtrl nbits w) (tablePacket nbits w)

end Sys2Proof.Machine
end

