-- ==== Sys2Proof/WellFormed.lean ====
section
/-! DEFINITION. Which terms of `Instr` are instructions of the opcode table. Every operand is a full-width field, so the
only terms that are not are ILLEGAL rows: the header must be one that no exact row takes, and the payload must be as long
as `op` says. The header check is written from R81's reserved fields, not from the decoder's rows; that the two agree
(R94) is a theorem. -/

namespace Sys2Proof

/-- A header with a reserved bit set: bits 31:6 of BEGIN_DRAW, bits 31:3 of every other command (R81). -/
def reservedBitSet (h : Cmd) : Bool :=
  if h.extractLsb' 0 3 = 0#3 then h.extractLsb' 6 26 != 0#26 else h.extractLsb' 3 29 != 0#29

/-- Well-formed: an ILLEGAL row has a header with a reserved bit set (R93, R94) and the payload length of its `op`
(R96). -/
def Instr.wellFormed : Instr → Bool
  | .illegal h ps => reservedBitSet h && ps.length + 1 == packetLen h
  | .beginShade0 _ | .beginShade1 _ | .beginShade2 _ | .beginBadU _ | .beginTex4 _ | .beginTex8 _ | .beginTex15 _
  | .beginBadT _ | .fragment _ | .fragShade0 _ | .fragShade1 _ | .fragShade2 _ | .pathInvalid3 _ | .fragTex4 _
  | .fragTex8 _ | .fragTex15 _ | .pathInvalid7 _ | .endDraw | .abortDraw | .vramWrite _ _ _ _ | .vramRead _ _
  | .readStatus | .reserved7 => true

/-- A PATH row: what FRAGMENT does under one `ctrl` value, not a packet of its own (R92). -/
def Instr.isPathRow (i : Instr) : Bool := (encodeCtrl i).isSome

end Sys2Proof
end

