-- ==== Sys2Proof/Safety.lean ====
section
/-! DEFINITION. The terms claims are stated in: the invariant of the machine, runs inside one draw, the rows grouped by
command, the outcome that R266 assigns to a command, and the values that the spec gives in real arithmetic or as a table,
written from the spec's text and not from the model's own functions. -/

namespace Sys2Proof.Machine

/-! ## The invariant and runs -/

/-- What every step keeps: LIVE is canonical, inside the extent and written in whole words only (R20, R51, R54, R55);
PEND is canonical and inside the extent (R22, R55), and empty whenever no OPEN draw is there (R22, R231); an OPEN draw has
a valid mode and a FAILED one the tag 3 (R24, R161, R223), and then `CFG_ERR` is set (R225). -/
structure State.Inv (s : State) : Prop where
  liveWf     : Memory.wf s.live
  liveWhole  : Memory.whole s.live
  pendWf     : Pending.wf s.pend
  pendEmpty  : s.ds ≠ .opened → s.pend = []
  openMode   : s.ds = .opened → s.u.mode ≠ 3#2
  failedMode : s.ds = .failed → s.u.mode = 3#2
  failedFlag : s.ds = .failed → s.cfgErr = true

/-- `t` is reached from `s` by steps after each of which a draw is still open. Where a draw is open in `s`, all of them
belong to that one draw, since only its closing makes room for another (R241). -/
inductive WithinDraw (s : State) : State → Prop where
  | here : WithinDraw s s
  | after {t t' : State} : WithinDraw s t → step t = .next t' → t'.ds ≠ .idle → WithinDraw s t'

/-! ## The rows of the opcode table, grouped -/

/-- The BEGIN_DRAW row with header field values `mode` and `t` (R92). -/
def beginRow (mode : BitVec 2) (t : Bool) (d : DrawIn) : Instr :=
  match mode.toNat, t with
  | 0, false => .beginShade0 d
  | 1, false => .beginShade1 d
  | 2, false => .beginShade2 d
  | _, false => .beginBadU d
  | 0, true => .beginTex4 d
  | 1, true => .beginTex8 d
  | 2, true => .beginTex15 d
  | _, true => .beginBadT d

/-- FRAGMENT and its PATH rows, on one payload. -/
def fragmentRows (f : FragIn) : List Instr :=
  [.fragment f, .fragShade0 f, .fragShade1 f, .fragShade2 f, .pathInvalid3 f, .fragTex4 f, .fragTex8 f, .fragTex15 f,
    .pathInvalid7 f]

/-- The exact rows' headers (R92 to R94). -/
def exactHeaders : List Cmd :=
  [0x00#32, 0x08#32, 0x10#32, 0x18#32, 0x20#32, 0x28#32, 0x30#32, 0x38#32, 0x01#32, 0x02#32, 0x03#32, 0x04#32, 0x05#32,
    0x06#32, 0x07#32]

/-- A BEGIN_DRAW row with the unrecognised tag 3 (R223). -/
def isBadBegin : Instr → Bool
  | .beginBadU _ | .beginBadT _ => true
  | .beginShade0 _ | .beginShade1 _ | .beginShade2 _ | .beginTex4 _ | .beginTex8 _ | .beginTex15 _ | .fragment _
  | .fragShade0 _ | .fragShade1 _ | .fragShade2 _ | .pathInvalid3 _ | .fragTex4 _ | .fragTex8 _ | .fragTex15 _
  | .pathInvalid7 _ | .endDraw | .abortDraw | .vramWrite _ _ _ _ | .vramRead _ _ | .readStatus | .reserved7
  | .illegal _ _ => false

/-- The commands that a BEGIN_DRAW packet decodes to. -/
def isBegin : Instr → Bool
  | .beginShade0 _ | .beginShade1 _ | .beginShade2 _ | .beginBadU _ | .beginTex4 _ | .beginTex8 _ | .beginTex15 _
  | .beginBadT _ => true
  | .fragment _ | .fragShade0 _ | .fragShade1 _ | .fragShade2 _ | .pathInvalid3 _ | .fragTex4 _ | .fragTex8 _
  | .fragTex15 _ | .pathInvalid7 _ | .endDraw | .abortDraw | .vramWrite _ _ _ _ | .vramRead _ _ | .readStatus
  | .reserved7 | .illegal _ _ => false

/-- FRAGMENT or one of its PATH rows. -/
def isFragment : Instr → Bool
  | .fragment _ | .fragShade0 _ | .fragShade1 _ | .fragShade2 _ | .pathInvalid3 _ | .fragTex4 _ | .fragTex8 _
  | .fragTex15 _ | .pathInvalid7 _ => true
  | .beginShade0 _ | .beginShade1 _ | .beginShade2 _ | .beginBadU _ | .beginTex4 _ | .beginTex8 _ | .beginTex15 _
  | .beginBadT _ | .endDraw | .abortDraw | .vramWrite _ _ _ _ | .vramRead _ _ | .readStatus | .reserved7
  | .illegal _ _ => false

/-! ## Outcomes -/

/-- The five causes of a protocol error (R262). -/
def violatesProtocol (i : Instr) (s : State) : Bool :=
  match i with
  | .beginShade0 _ | .beginShade1 _ | .beginShade2 _ | .beginBadU _ | .beginTex4 _ | .beginTex8 _ | .beginTex15 _
  | .beginBadT _ => s.ds.drawOpen
  | .fragment _ | .fragShade0 _ | .fragShade1 _ | .fragShade2 _ | .pathInvalid3 _ | .fragTex4 _ | .fragTex8 _
  | .fragTex15 _ | .pathInvalid7 _ | .endDraw | .abortDraw => !s.ds.drawOpen
  | .vramWrite _ _ _ rsv => rsv != 0#16 || s.ds.drawOpen
  | .vramRead _ _ | .readStatus => false
  | .reserved7 | .illegal _ _ => true

/-- The CLUT entry that a FRAGMENT with payload `f` resolves to on an indexed path with `n` indices a word (R145, R163,
R164, R181, R182). -/
def clutEntry (s : State) (n : Nat) (f : FragIn) : Word :=
  let t := readWord s.live (texelAddr s.choices n f)
  let sub := (texelSub s.choices n f.u).toNat
  readWord s.live (clutAddr s.u (t.toNat / 2 ^ (sub * (16 / n)) % 2 ^ (16 / n)))

/-- The status that R266's list assigns to a command, the first matching line deciding. -/
def outcome (i : Instr) (s : State) : Status :=
  if violatesProtocol i s then .protoError
  else if isBadBegin i then .cfgError
  else match i with
    | .fragment f =>
      if s.ds = .failed then .cfgError
      else if s.u.ctrl = 0b100#3 ∧ clutEntry s 4 f = 0x0000#16 then .discarded
      else if s.u.ctrl = 0b101#3 ∧ clutEntry s 2 f = 0x0000#16 then .discarded
      else .ok
    | _ => .ok

/-- The state after a command that only answers `r`. -/
def answered (s : State) (r : Cmd) : State := { s with responses := s.responses ++ [r] }

/-- The state after a protocol error (R262). -/
def refusedBy (s : State) : State := { s with protoErr := true, responses := s.responses ++ [0x00000003#32] }

/-- The field `st` of a response (R88). -/
def rspSt (r : Cmd) : BitVec 3 := r.extractLsb' 0 3

/-! ## Values in the spec's own terms -/

/-- A finite binary32 value: the exponent field is not 255 (IEEE-754, R10). -/
def isFinite32 (x : F32) : Bool := x.extractLsb' 23 8 != 255#8

/-- `real(x)` of a finite binary32 value by the formula of IEEE-754 (R10). -/
def real32 (x : F32) : ℚ :=
  let e : Int := (x.extractLsb' 23 8).toNat
  let frac : ℚ := (x.extractLsb' 0 23).toNat
  let mag : ℚ := if e = 0 then frac / 2 ^ 23 * (2 : ℚ) ^ (-126 : Int) else (1 + frac / 2 ^ 23) * (2 : ℚ) ^ (e - 127)
  if x.getLsbD 31 then -mag else mag

/-- Table R122, the column of `d_k`. -/
def decodeTable : List F32 :=
  [0x00000000#32, 0x3D042108#32, 0x3D842108#32, 0x3DC6318C#32, 0x3E042108#32, 0x3E25294A#32, 0x3E46318C#32,
    0x3E6739CE#32, 0x3E842108#32, 0x3E94A529#32, 0x3EA5294A#32, 0x3EB5AD6B#32, 0x3EC6318C#32, 0x3ED6B5AD#32,
    0x3EE739CE#32, 0x3EF7BDEF#32, 0x3F042108#32, 0x3F0C6319#32, 0x3F14A529#32, 0x3F1CE73A#32, 0x3F25294A#32,
    0x3F2D6B5B#32, 0x3F35AD6B#32, 0x3F3DEF7C#32, 0x3F46318C#32, 0x3F4E739D#32, 0x3F56B5AD#32, 0x3F5EF7BE#32,
    0x3F6739CE#32, 0x3F6F7BDF#32, 0x3F77BDEF#32, 0x3F800000#32]

/-- Table R122, the column of `T_k`, from k = 1. -/
def encodeThresholds : List F32 :=
  [0x3D000106#32, 0x3D800106#32, 0x3DC00189#32, 0x3E000106#32, 0x3E200148#32, 0x3E400189#32, 0x3E6001CB#32,
    0x3E800106#32, 0x3E900127#32, 0x3EA00148#32, 0x3EB00168#32, 0x3EC00189#32, 0x3ED001AA#32, 0x3EE001CB#32,
    0x3EF001EB#32, 0x3F000106#32, 0x3F080116#32, 0x3F100127#32, 0x3F180137#32, 0x3F200148#32, 0x3F280158#32,
    0x3F300168#32, 0x3F380179#32, 0x3F400189#32, 0x3F480199#32, 0x3F5001AA#32, 0x3F5801BA#32, 0x3F6001CB#32,
    0x3F6801DB#32, 0x3F7001EB#32, 0x3F7801FC#32]

end Sys2Proof.Machine
end

