-- ==== Sys2Proof/Certificates/Slice0/Obligations.lean ====
section
/-! DEFINITION. The statements for the provers, from the numbered rules of spec/. -/

open Sys2Proof Sys2Proof.Machine

/-! ## Encoding -/

/-- Every well-formed instruction of the opcode table is read back from its packet, whatever follows the packet; a PATH
row from its packet and its `ctrl` field (R81 to R87, R92). -/
def Obligations.DecodeReadsEncodedInstruction : Prop :=
  ∀ (i : Instr) (rest : List Cmd), i.wellFormed = true → decodeUnder (encodeCtrl i) (encode i ++ rest) = .ok (i, rest)

/-- Whatever the decoder reads is well-formed, is no PATH row, and encodes to the very words it was read from: no bit of
a packet is dropped and no two packets read as one instruction. -/
def Obligations.EncodeInvertsDecode : Prop :=
  ∀ (ws rest : List Cmd) (i : Instr), decode ws = .ok (i, rest) →
    encode i ++ rest = ws ∧ i.wellFormed = true ∧ i.isPathRow = false

/-- R96 (and R82's lengths): the packet length is a function of `op` alone, and it is what the decoder consumes. -/
def Obligations.PacketLengthFollowsFromOp : Prop :=
  (∀ h : Cmd, packetLen h = [6, 7, 1, 1, 3, 2, 1, 1].getD (h.extractLsb' 0 3).toNat 0) ∧
  (∀ (h : Cmd) (ps : List Cmd), packetLen h ≤ (h :: ps).length →
    ∃ i, decode (h :: ps) = .ok (i, ps.drop (packetLen h - 1))) ∧
  (∀ (h : Cmd) (ps : List Cmd), (h :: ps).length < packetLen h → ∃ e, decode (h :: ps) = .error e)

/-- R94: no two exact rows overlap; each exact header decodes to its own row; the ILLEGAL row takes exactly the headers
no exact row matches; and these are exactly the headers with a reserved bit set. -/
def Obligations.IllegalRowTakesReservedBits : Prop :=
  exactHeaders.Nodup ∧
  (∀ (h : Cmd) (ps : List Cmd), h ∈ exactHeaders → ps.length + 1 = packetLen h →
    ∃ i, decode (h :: ps) = .ok (i, []) ∧ (encode i).head? = some h ∧ ∀ h' ps', i ≠ .illegal h' ps') ∧
  (∀ (h : Cmd) (ps rest : List Cmd), h ∉ exactHeaders → ps.length + 1 = packetLen h →
    decode (h :: ps ++ rest) = .ok (.illegal h ps, rest)) ∧
  (∀ h : Cmd, h ∈ exactHeaders ↔ reservedBitSet h = false)

/-- R99: the four assembled examples decode to the commands they stand for, which encode to those words. -/
def Obligations.ExamplePacketsDecode : Prop :=
  decode [0x00000028#32, 0x00000000#32, 0x01E00000#32, 0x3F000000#32, 0x3F000000#32, 0x3F000000#32]
    = .ok (.beginTex8 ⟨0#16, 0#16, 0#16, 480#16, 0x3F000000#32, 0x3F000000#32, 0x3F000000#32⟩, []) ∧
  decode [0x00000002#32] = .ok (.endDraw, []) ∧
  decode [0x00000004#32, 0x00000005#32, 0x00001F00#32] = .ok (.vramWrite 5#16 0#16 0x1F00#16 0#16, []) ∧
  decode [0x00000005#32, 0x00640065#32] = .ok (.vramRead 101#16 100#16, []) ∧
  encode (.beginTex8 ⟨0#16, 0#16, 0#16, 480#16, 0x3F000000#32, 0x3F000000#32, 0x3F000000#32⟩)
    = [0x00000028#32, 0x00000000#32, 0x01E00000#32, 0x3F000000#32, 0x3F000000#32, 0x3F000000#32] ∧
  encode .endDraw = [0x00000002#32] ∧
  encode (.vramWrite 5#16 0#16 0x1F00#16 0#16) = [0x00000004#32, 0x00000005#32, 0x00001F00#32] ∧
  encode (.vramRead 101#16 100#16) = [0x00000005#32, 0x00640065#32]

/-- R92: the path that each value of `ctrl` selects. -/
def Obligations.CtrlSelectsPath : Prop :=
  decodePath 0b000#3 = .shade0 ∧ decodePath 0b001#3 = .shade1 ∧ decodePath 0b010#3 = .shade2 ∧
  decodePath 0b011#3 = .invalid3 ∧ decodePath 0b100#3 = .tex4 ∧ decodePath 0b101#3 = .tex8 ∧
  decodePath 0b110#3 = .tex15 ∧ decodePath 0b111#3 = .invalid7 ∧
  ∀ (mode : BitVec 2) (t : Bool) (d : DrawIn),
    (encode (beginRow mode t d)).head? = some (0#26 ++ BitVec.ofBool t ++ mode ++ 0#3)

/-! ## The step -/

/-- R220: a packet that stands at the head of the stream is taken out of it whole and its command executed. -/
def Obligations.StepRunsDecodedPacket : Prop :=
  ∀ (s : State) (i : Instr) (rest : List Cmd), decode s.stream = .ok (i, rest) →
    step s = exec i { s with stream := rest }

/-- The MODEL'S choice (log 2), from R272 "it is idle whenever no packet is pending, and all state is retained": with no
whole packet in the stream a step changes nothing. -/
def Obligations.StepIdlesWithoutPacket : Prop :=
  ∀ s : State, (s.stream = [] ∨ ∃ h ps, s.stream = h :: ps ∧ ps.length + 1 < packetLen h) → step s = .next s

/-- R88, R89: every instruction in every state answers exactly one response, takes nothing from the stream, and the
response has status 0 to 3 and zeros in bits 15:4; only a FRAGMENT sets `tm`, and only with status OK. -/
def Obligations.EveryCommandAnswersOneResponse : Prop :=
  ∀ (i : Instr) (s : State), ∃ t r, exec i s = .next t ∧ t.responses = s.responses ++ [r] ∧ t.stream = s.stream ∧
    (rspSt r).toNat ≤ 3 ∧ r.extractLsb' 4 12 = 0#12 ∧
    (r.getLsbD 3 = true → isFragment i = true ∧ rspSt r = 0#3) ∧
    (rspSt r ≠ 0#3 → r.extractLsb' 16 16 = 0#16)

/-- R266: the status of every command is the one that the first matching line of the list gives. -/
def Obligations.OutcomePriority : Prop :=
  ∀ (i : Instr) (s : State), s.Inv → i.isPathRow = false →
    ∃ t r, exec i s = .next t ∧ t.responses = s.responses ++ [r] ∧ rspSt r = (outcome i s).code

/-- R262: each of the five causes, and nothing else, makes a command a protocol error; its packet is consumed, and nothing
but `PROTO_ERR` and the response changes. -/
def Obligations.ProtocolErrorChangesOnlyItsFlag : Prop :=
  (∀ (i : Instr) (s : State),
    (violatesProtocol i s = true → exec i s = .next (refusedBy s)) ∧
    (violatesProtocol i s = false → ∃ t r, exec i s = .next t ∧ t.responses = s.responses ++ [r] ∧
      rspSt r ≠ 3#3 ∧ t.protoErr = s.protoErr)) ∧
  ∀ (s : State) (i : Instr) (rest : List Cmd), decode s.stream = .ok (i, rest) → violatesProtocol i s = true →
    step s = .next (refusedBy { s with stream := rest })

/-- R221: a packet with a reserved header bit set, or a VRAM_WRITE whose `P2[31:16]` is not zero, is a protocol error in
every state: its words are consumed, `PROTO_ERR` is set, 0x00000003 is answered and nothing else changes. -/
def Obligations.ReservedBitIsProtocolError : Prop :=
  (∀ (s : State) (h : Cmd) (ps rest : List Cmd), s.stream = h :: ps ++ rest → ps.length + 1 = packetLen h →
    reservedBitSet h = true → step s = .next (refusedBy { s with stream := rest })) ∧
  (∀ (s : State) (p1 p2 : Cmd) (rest : List Cmd), s.stream = 0x00000004#32 :: p1 :: p2 :: rest →
    p2.extractLsb' 16 16 ≠ 0#16 → step s = .next (refusedBy { s with stream := rest }))

/-- R240: any header with `op` = 7 is a one-word packet and a protocol error. -/
def Obligations.OpcodeSevenIsProtocolError : Prop :=
  ∀ (s : State) (h : Cmd) (rest : List Cmd), s.stream = h :: rest → h.extractLsb' 0 3 = 7#3 →
    step s = .next (refusedBy { s with stream := rest })

/-- The rows RESERVED7 and ILLEGAL, whose whole effect is the protocol error, take it in every state (R221, R240). -/
def Obligations.ReservedRowsAnswerProtocolError : Prop :=
  ∀ (s : State) (h : Cmd) (ps : List Cmd),
    exec .reserved7 s = .next (refusedBy s) ∧ exec (.illegal h ps) s = .next (refusedBy s)

/-! ## Draw commands -/

/-- R222: BEGIN_DRAW with a valid tag, in IDLE, latches the whole uniform bit for bit, empties PEND, opens the draw and
answers 0x00000000; everything else, all of VRAM included, is as before. -/
def Obligations.BeginDrawOpensDraw : Prop :=
  ∀ (mode : BitVec 2) (t : Bool) (d : DrawIn) (s : State), mode ≠ 3#2 → s.ds = .idle →
    exec (beginRow mode t d) s = .next
      { s with
        u := { mode := mode, textured := t, tpX := d.tpX, tpY := d.tpY, clutX := d.clutX, clutY := d.clutY,
               modR := d.modR, modG := d.modG, modB := d.modB }
        pend := []
        ds := .opened
        responses := s.responses ++ [0x00000000#32] }

/-- R223: BEGIN_DRAW with tag 3, in IDLE, whatever `t` is, latches the uniform, sets `CFG_ERR`, makes the draw FAILED and
answers 0x00000002; everything else is as before. READ_STATUS then gives 0x0077 or 0x0037 where no protocol error was
there before. -/
def Obligations.BeginDrawWithBadTagFailsDraw : Prop :=
  ∀ (t : Bool) (d : DrawIn) (s : State), s.ds = .idle →
    ∃ s', exec (beginRow 3#2 t d) s = .next s' ∧
      s' = { s with
        u := { mode := 3#2, textured := t, tpX := d.tpX, tpY := d.tpY, clutX := d.clutX, clutY := d.clutY,
               modR := d.modR, modG := d.modG, modB := d.modB }
        cfgErr := true
        ds := .failed
        responses := s.responses ++ [0x00000002#32] } ∧
      (s.protoErr = false → statusWord s' = if t then 0x0077#16 else 0x0037#16)

/-- R241: BEGIN_DRAW while a draw is open, with any tag, is a protocol error: the open draw, `U`, PEND and `CFG_ERR` are
unchanged. -/
def Obligations.BeginDrawInsideDrawRefused : Prop :=
  ∀ (mode : BitVec 2) (t : Bool) (d : DrawIn) (s : State), s.ds ≠ .idle →
    exec (beginRow mode t d) s = .next
      { s with protoErr := true, responses := s.responses ++ [0x00000003#32] }

/-- R26: `U` is written only by a BEGIN_DRAW that is not a protocol error, which writes every field; any other command
leaves it as it is, and so does a BEGIN_DRAW inside a draw. -/
def Obligations.UniformWrittenOnlyByAcceptedBegin : Prop :=
  (∀ (i : Instr) (s t : State), exec i s = .next t → ¬(isBegin i = true ∧ s.ds = .idle) → t.u = s.u) ∧
  (∀ (mode : BitVec 2) (tx : Bool) (d : DrawIn) (s : State), s.ds = .idle → ∃ t, exec (beginRow mode tx d) s = .next t ∧
    t.u = ⟨mode, tx, d.tpX, d.tpY, d.clutX, d.clutY, d.modR, d.modG, d.modB⟩)

/-- R224, R161: FRAGMENT in an OPEN draw runs the PATH row that `U.textured` and `U.mode` select. `U.mode` = 3 cannot
occur there (R161; it is part of the invariant). -/
def Obligations.FragmentRunsSelectedPath : Prop :=
  ∀ (f : FragIn) (s : State), s.ds = .opened → s.u.mode ≠ 3#2 →
    exec (.fragment f) s =
      if s.u.textured = false then
        if s.u.mode = 0#2 then exec (.fragShade0 f) s
        else if s.u.mode = 1#2 then exec (.fragShade1 f) s
        else exec (.fragShade2 f) s
      else if s.u.mode = 0#2 then exec (.fragTex4 f) s
      else if s.u.mode = 1#2 then exec (.fragTex8 f) s
      else exec (.fragTex15 f) s

/-- R225: a FRAGMENT of a FAILED draw, whatever its inputs, answers 0x00000002 and changes nothing else; `CFG_ERR` is
already 1. It covers the PATH rows too, PATH.INVALID among them, whose only effect this is. -/
def Obligations.FragmentOfFailedDrawAnswersConfigError : Prop :=
  ∀ (f : FragIn) (s : State), s.ds = .failed →
    (∀ i ∈ fragmentRows f, exec i s = .next { s with responses := s.responses ++ [0x00000002#32] }) ∧
    (s.Inv → s.cfgErr = true)

/-- R226, R230, R233: FRAGMENT on every row, END_DRAW and ABORT_DRAW with no draw open are protocol errors, and no VRAM
access happens. -/
def Obligations.CommandsNeedingDrawRefusedInIdle : Prop :=
  ∀ (f : FragIn) (s : State), s.ds = .idle → ∀ i ∈ Instr.endDraw :: .abortDraw :: fragmentRows f,
    exec i s = .next { s with protoErr := true, responses := s.responses ++ [0x00000003#32] }

/-- R231: END_DRAW in a FAILED draw closes it and answers 0x00000000; PEND is empty, LIVE is unchanged and `CFG_ERR` stays
1. -/
def Obligations.EndDrawClosesFailedDraw : Prop :=
  ∀ s : State, s.ds = .failed →
    exec .endDraw s = .next { s with ds := .idle, responses := s.responses ++ [0x00000000#32] } ∧
    (s.Inv → s.pend = [] ∧ s.cfgErr = true)

/-- R232, R228: END_DRAW in an OPEN draw stores, at each address with pending words, one whole word of those; every byte of
every other word is as before; PEND is emptied and the draw closed; nothing else changes, but for the
model's own counter (log 4). -/
def Obligations.EndDrawCommitsPendingWords : Prop :=
  ∀ s : State, s.Inv → s.ds = .opened → ∃ t, exec .endDraw s = .next t ∧
    (∀ a : WordAddr, pendAt s.pend a ≠ [] → readWord t.live a ∈ pendAt s.pend a) ∧
    (∀ b : Nat, (∀ a : WordAddr, b / 2 = a.toNat → pendAt s.pend a = []) → readByte t.live b = readByte s.live b) ∧
    t = { s with live := t.live, pend := [], ds := .idle, choices := s.choices + 1,
                 responses := s.responses ++ [0x00000000#32] }

/-- R234: ABORT_DRAW in an OPEN or FAILED draw leaves each word as it was or at one whole word that the draw wrote there;
every byte of a word with nothing pending is as before; PEND is emptied and the draw closed; a FAILED draw's abort changes
no VRAM; the model's own counter moves on (log 4). -/
def Obligations.AbortDrawKeepsOrCommitsEachWord : Prop :=
  ∀ s : State, s.Inv → s.ds ≠ .idle → ∃ t, exec .abortDraw s = .next t ∧
    (∀ a : WordAddr, readWord t.live a = readWord s.live a ∨ readWord t.live a ∈ pendAt s.pend a) ∧
    (∀ b : Nat, (∀ a : WordAddr, b / 2 = a.toNat → pendAt s.pend a = []) → readByte t.live b = readByte s.live b) ∧
    (s.ds = .failed → t.live = s.live) ∧
    t = { s with live := t.live, pend := [], ds := .idle, choices := s.choices + 1,
                 responses := s.responses ++ [0x00000000#32] }

/-! ## Fragment paths -/

/-- R204: FRAG.TEX4, and FRAGMENT in a draw with `ctrl` 0b100: ADDR with N = 4, the texel read, EXTRACT4, the CLUT read,
the transparency test, DECODE, MODULATE, ENCODE and the pending write at the clamped destination. Of the model's own counter
`choices`, which numbers the draws `nan_coord` and `nan_encode` (log 4), the statement says nothing after the command. -/
def Obligations.FragTex4Result : Prop :=
  ∀ (f : FragIn) (s : State), s.ds = .opened → s.u.ctrl = 0b100#3 → ∀ i ∈ [Instr.fragTex4 f, Instr.fragment f],
    let t := readWord s.live (wa (texelCol s.choices 4 f.u) (texelRow s.choices f.v))
    let idx := extract4 t (texelSub s.choices 4 f.u)
    let c := readWord s.live (wa (clampCol ((s.u.clutX.toNat + idx : Nat) : Int)) (clampRow s.u.clutY.toNat))
    let d := decodeRgb c
    let out := encodeColour s.choices ⟨fmul32 d.r s.u.modR, fmul32 d.g s.u.modG, fmul32 d.b s.u.modB⟩ (maskBit c)
    let dst := wa (clampCol f.dstX.toNat) (clampRow f.dstY.toNat)
    (c = 0x0000#16 → ∃ n, exec i s = .next
      { s with choices := n, responses := s.responses ++ [0x00000001#32] }) ∧
    (c ≠ 0x0000#16 → ∃ n, exec i s = .next
      { s with choices := n, pend := pendWrite s.pend dst out,
               responses := s.responses ++ [out ++ 0x000#12 ++ BitVec.ofBool (maskBit c) ++ 0b000#3] })

/-- R205: FRAG.TEX8, and FRAGMENT in a draw with `ctrl` 0b101: as TEX4 with N = 2 and EXTRACT8. -/
def Obligations.FragTex8Result : Prop :=
  ∀ (f : FragIn) (s : State), s.ds = .opened → s.u.ctrl = 0b101#3 → ∀ i ∈ [Instr.fragTex8 f, Instr.fragment f],
    let t := readWord s.live (wa (texelCol s.choices 2 f.u) (texelRow s.choices f.v))
    let idx := extract8 t (texelSub s.choices 2 f.u)
    let c := readWord s.live (wa (clampCol ((s.u.clutX.toNat + idx : Nat) : Int)) (clampRow s.u.clutY.toNat))
    let d := decodeRgb c
    let out := encodeColour s.choices ⟨fmul32 d.r s.u.modR, fmul32 d.g s.u.modG, fmul32 d.b s.u.modB⟩ (maskBit c)
    let dst := wa (clampCol f.dstX.toNat) (clampRow f.dstY.toNat)
    (c = 0x0000#16 → ∃ n, exec i s = .next
      { s with choices := n, responses := s.responses ++ [0x00000001#32] }) ∧
    (c ≠ 0x0000#16 → ∃ n, exec i s = .next
      { s with choices := n, pend := pendWrite s.pend dst out,
               responses := s.responses ++ [out ++ 0x000#12 ++ BitVec.ofBool (maskBit c) ++ 0b000#3] })

/-- R206: FRAG.TEX15, and FRAGMENT in a draw with `ctrl` 0b110: the texel word is the colour and nothing is discarded. -/
def Obligations.FragTex15Result : Prop :=
  ∀ (f : FragIn) (s : State), s.ds = .opened → s.u.ctrl = 0b110#3 → ∀ i ∈ [Instr.fragTex15 f, Instr.fragment f],
    let c := readWord s.live (wa (texelCol s.choices 1 f.u) (texelRow s.choices f.v))
    let d := decodeRgb c
    let out := encodeColour s.choices ⟨fmul32 d.r s.u.modR, fmul32 d.g s.u.modG, fmul32 d.b s.u.modB⟩ (maskBit c)
    let dst := wa (clampCol f.dstX.toNat) (clampRow f.dstY.toNat)
    ∃ n, exec i s = .next
      { s with choices := n, pend := pendWrite s.pend dst out,
               responses := s.responses ++ [out ++ 0x000#12 ++ BitVec.ofBool (maskBit c) ++ 0b000#3] }

/-- R207: FRAG.SHADE on its three rows, and FRAGMENT in a draw with `ctrl` 0b000, 0b001 or 0b010: the vertex colour is
encoded with mask 0, with no modulation, no VRAM read and no discard. -/
def Obligations.FragShadeResult : Prop :=
  ∀ (f : FragIn) (s : State), s.ds = .opened →
    ∀ p ∈ [(0b000#3, Instr.fragShade0 f), (0b001#3, Instr.fragShade1 f), (0b010#3, Instr.fragShade2 f)],
    s.u.ctrl = p.1 → ∀ i ∈ [p.2, Instr.fragment f],
    let out := encodeColour s.choices ⟨f.r, f.g, f.b⟩ false
    let dst := wa (clampCol f.dstX.toNat) (clampRow f.dstY.toNat)
    ∃ n, exec i s = .next
      { s with choices := n, pend := pendWrite s.pend dst out,
               responses := s.responses ++ [out ++ 0x000#12 ++ 0#1 ++ 0b000#3] }

/-- R11, R22: a pending write adds its word to the set at its address and changes no other set; the canonical form of PEND
is kept. -/
def Obligations.PendingWriteAddsOneWord : Prop :=
  ∀ (p : Pending) (a : WordAddr) (w : Word),
    (∀ v, v ∈ pendAt (pendWrite p a w) a ↔ v = w ∨ v ∈ pendAt p a) ∧
    (∀ b, b ≠ a → pendAt (pendWrite p a w) b = pendAt p b) ∧
    (Pending.wf p → Pending.wf (pendWrite p a w))

/-- R187: on the indexed rows an entry of 0x0000 is discarded under every modulation, NaN and infinities included, whereas
any other entry modulated by {0,0,0} is written, as 0x0000 (mask 0) or 0x8000 (mask 1). -/
def Obligations.DiscardPrecedesModulation : Prop :=
  ∀ (f : FragIn) (s : State), s.ds = .opened →
    ∀ p ∈ [(0b100#3, 4), (0b101#3, 2)], s.u.ctrl = p.1 →
    (clutEntry s p.2 f = 0x0000#16 → ∀ mr mg mb : F32, ∃ n,
      exec (.fragment f) { s with u := { s.u with modR := mr, modG := mg, modB := mb } } = .next
        { s with u := { s.u with modR := mr, modG := mg, modB := mb }, choices := n,
                 responses := s.responses ++ [0x00000001#32] }) ∧
    (clutEntry s p.2 f ≠ 0x0000#16 → s.u.modR = 0#32 → s.u.modG = 0#32 → s.u.modB = 0#32 → ∃ t r,
      exec (.fragment f) s = .next t ∧ t.responses = s.responses ++ [r] ∧ rspSt r = 0#3 ∧
      r.extractLsb' 16 16 = clutEntry s p.2 f &&& 0x8000#16 ∧
      (clutEntry s p.2 f &&& 0x8000#16) ∈ pendAt t.pend (clampedAddr f.dstX f.dstY))

/-- R211: multiplying a decoded channel by 1.0 gives it back exactly, and on TEX15 with modulation (1.0, 1.0, 1.0) the
output word is the texel word, for every word, with its mask bit carried. -/
def Obligations.DirectPassThrough : Prop :=
  (∀ k : BitVec 5, fmul32 (decodeChannel k) 0x3F800000#32 = decodeChannel k) ∧
  ∀ (f : FragIn) (s : State), s.ds = .opened → s.u.ctrl = 0b110#3 → s.u.modR = 0x3F800000#32 →
    s.u.modG = 0x3F800000#32 → s.u.modB = 0x3F800000#32 →
    let c := readWord s.live (texelAddr s.choices 1 f)
    ∃ n, exec (.fragTex15 f) s = .next
      { s with choices := n, pend := pendWrite s.pend (clampedAddr f.dstX f.dstY) c,
               responses := s.responses ++ [c ++ 0x000#12 ++ c.extractLsb' 15 1 ++ 0b000#3] }

/-- R227, R212, in part: two FRAGMENTs of one OPEN draw, in either order, give the same two responses and the same state.
It covers FRAGMENTs without a NaN among uv and the vertex colour, the operands that the path does not read included, under
finite modulation. (With a NaN operand, or an infinite or NaN factor, each order makes its own draws.) PEND is a set of
words at each address, so this holds even where they share a destination; what END_DRAW then picks is open. -/
def Obligations.FragmentsCommute : Prop :=
  ∀ (f g : FragIn) (s : State), s.Inv → s.ds = .opened →
    (∀ x ∈ [f.u, f.v, f.r, f.g, f.b, g.u, g.v, g.r, g.g, g.b], isNaN x = false) →
    (∀ x ∈ [s.u.modR, s.u.modG, s.u.modB], isFinite32 x = true) →
    ∃ t₁ t₂ u₁ u₂ rf rg,
      exec (.fragment f) s = .next t₁ ∧ exec (.fragment g) t₁ = .next t₂ ∧
      exec (.fragment g) s = .next u₁ ∧ exec (.fragment f) u₁ = .next u₂ ∧
      t₂.responses = s.responses ++ [rf, rg] ∧ u₂.responses = s.responses ++ [rg, rf] ∧
      { t₂ with responses := [] } = { u₂ with responses := [] }

/-- R212: a FRAGMENT's response and pending write depend only on `U`, its own operands, its draws and the one word of the
read view that gives its colour (the CLUT entry that its texel names on an indexed path, the texel on TEX15): not on PEND,
the flags, the responses or any other word. -/
def Obligations.FragmentDependsOnlyOnItsInputs : Prop :=
  ∀ (f : FragIn) (s s' : State), s.ds = .opened → s'.ds = .opened → s'.u = s.u → s'.choices = s.choices →
    (s.u.ctrl = 0b100#3 → clutEntry s' 4 f = clutEntry s 4 f) →
    (s.u.ctrl = 0b101#3 → clutEntry s' 2 f = clutEntry s 2 f) →
    (s.u.ctrl = 0b110#3 → readWord s'.live (texelAddr s.choices 1 f) = readWord s.live (texelAddr s.choices 1 f)) →
    ∃ t t' r, exec (.fragment f) s = .next t ∧ exec (.fragment f) s' = .next t' ∧
      t.responses = s.responses ++ [r] ∧ t'.responses = s'.responses ++ [r] ∧
      ((t.pend = s.pend ∧ t'.pend = s'.pend) ∨
        ∃ w, t.pend = pendWrite s.pend (clampedAddr f.dstX f.dstY) w ∧
          t'.pend = pendWrite s'.pend (clampedAddr f.dstX f.dstY) w)

/-- R166, R207: what a FRAGMENT does on the SHADE path does not depend on VRAM, on `uv`, or on any field of `U` but
`textured` (and a valid mode). -/
def Obligations.ShadeReadsNoVramAndNoUniform : Prop :=
  ∀ (f : FragIn) (s : State) (m : Memory) (v : Uniform) (x y : F32), s.ds = .opened → s.u.textured = false →
    s.u.mode ≠ 3#2 → v.textured = false → v.mode ≠ 3#2 → ∃ t,
    exec (.fragment f) s = .next t ∧
    exec (.fragment { f with u := x, v := y }) { s with live := m, u := v } = .next { t with live := m, u := v }

/-- R141, R29: the texture page base takes no part in any address: changing it changes no command's effect, but for the
latched base itself. -/
def Obligations.TexturePageBaseHasNoEffect : Prop :=
  ∀ (i : Instr) (s : State) (x y : Word), ¬(isBegin i = true ∧ s.ds = .idle) → ∃ t,
    exec i s = .next t ∧
    exec i { s with u := { s.u with tpX := x, tpY := y } } = .next { t with u := { s.u with tpX := x, tpY := y } }

/-! ## Sub-unit operations -/

/-- R142, in rational arithmetic: for N = 4, 2, 1 and any `u` that is not a NaN, the pixel position is
`floor(real(u) * 1024 * N)` clamped to 0..1024N-1, infinities beyond every bound, the column its quotient and the sub-index
its remainder by N. -/
def Obligations.TexelColumnIsClampedFloor : Prop :=
  ∀ (i n : Nat) (u : F32), n ∈ [1, 2, 4] →
    (isFinite32 u = true →
      let px := (max 0 (min (⌊real32 u * 1024 * n⌋) (1024 * n - 1))).toNat
      (texelCol i n u).toNat = px / n ∧ (texelSub i n u).toNat = px % n) ∧
    (u = 0x7F800000#32 → (texelCol i n u).toNat = 1023 ∧ (texelSub i n u).toNat = n - 1) ∧
    (u = 0xFF800000#32 → (texelCol i n u).toNat = 0 ∧ (texelSub i n u).toNat = 0) ∧
    (texelSub i n u).toNat < n

/-- R143, in rational arithmetic: for any `v` that is not a NaN the row is `floor(real(v) * 512)` clamped to 0..511,
infinities beyond every bound. -/
def Obligations.TexelRowIsClampedFloor : Prop :=
  ∀ (i : Nat) (v : F32),
    (isFinite32 v = true → ((texelRow i v).toNat : Int) = max 0 (min (⌊real32 v * 512⌋) 511)) ∧
    (v = 0x7F800000#32 → texelRow i v = 511#9) ∧ (v = 0xFF800000#32 → texelRow i v = 0#9)

/-- R146: inside [0, 1) the column is the source's `floor(u * vram_width)` and the sub-index the source's
`floor(fract(u * vram_width) * N)`. -/
def Obligations.TexelAddressAgreesWithSource : Prop :=
  ∀ (i n : Nat) (u : F32), n ∈ [1, 2, 4] → isFinite32 u = true → 0 ≤ real32 u → real32 u < 1 →
    ((texelCol i n u).toNat : Int) = ⌊real32 u * 1024⌋ ∧
    ((texelSub i n u).toNat : Int) = ⌊Int.fract (real32 u * 1024) * n⌋

/-- R163, R164: EXTRACT4 is the nibble `T[4*sub+3 : 4*sub]` and EXTRACT8 the byte `T[8*sub+7 : 8*sub]`, with the source's
examples. -/
def Obligations.SubWordIndexExtraction : Prop :=
  (∀ (t : Word) (sub : BitVec 2), extract4 t sub = (t.extractLsb' (4 * sub.toNat) 4).toNat) ∧
  (∀ (t : Word) (sub : BitVec 2), sub.toNat < 2 → extract8 t sub = (t.extractLsb' (8 * sub.toNat) 8).toNat) ∧
  extract4 0xA3D7#16 0#2 = 0x7 ∧ extract4 0xA3D7#16 1#2 = 0xD ∧ extract4 0xA3D7#16 2#2 = 0x3 ∧
  extract4 0xA3D7#16 3#2 = 0xA ∧ extract8 0x1F00#16 0#2 = 0x00 ∧ extract8 0x1F00#16 1#2 = 0x1F

/-- R181, R183, R208: a CLUT address saturates in each coordinate, its sum does not wrap and its row never advances; a
destination saturates onto the right and bottom edge; with the examples of both rules. -/
def Obligations.AddressesSaturate : Prop :=
  (∀ (u : Uniform) (idx : Nat),
    (clutAddr u idx).toNat = min u.clutY.toNat 511 * 1024 + min (u.clutX.toNat + idx) 1023) ∧
  (∀ u : Uniform, u.clutX = 1016#16 → u.clutY = 511#16 →
    clutAddr u 13 = wa 1023#10 511#9 ∧ clutAddr u 3 = wa 1019#10 511#9) ∧
  (∀ x y : Word, (clampedAddr x y).toNat = min y.toNat 511 * 1024 + min x.toNat 1023) ∧
  clampedAddr 2000#16 5000#16 = wa 1023#10 511#9

/-- R122: the DECODE channel table, and that each entry is 31 parts correctly rounded: no binary32 value is nearer to
k/31. -/
def Obligations.DecodeChannelTable : Prop :=
  ∀ k : BitVec 5, decodeChannel k = decodeTable.getD k.toNat 0#32 ∧
    ∀ y : F32, isFinite32 y = true →
      |real32 (decodeChannel k) - (k.toNat : ℚ) / 31| ≤ |real32 y - (k.toNat : ℚ) / 31|

/-- R91, R120: the fields that DECODE reads, and that the mask bit plays no part in the colour. -/
def Obligations.DecodeReadsFields : Prop :=
  ∀ (m : Bool) (b g r : BitVec 5),
    decodeRgb (BitVec.ofBool m ++ b ++ g ++ r) = ⟨decodeChannel r, decodeChannel g, decodeChannel b⟩ ∧
    maskBit (BitVec.ofBool m ++ b ++ g ++ r) = m

/-- R123 (corner cases), R127: each field of ENCODE comes from its own channel alone; a NaN channel takes its own draw and
disturbs no other field. -/
def Obligations.EncodeFieldsAreIndependent : Prop :=
  ∀ (i : Nat) (c : Rgb) (m : Bool),
    (encodeColour i c m).extractLsb' 0 5 = (if isNaN c.r then Config.nanEncodeR i else quantize c.r) ∧
    (encodeColour i c m).extractLsb' 5 5 = (if isNaN c.g then Config.nanEncodeG i else quantize c.g) ∧
    (encodeColour i c m).extractLsb' 10 5 = (if isNaN c.b then Config.nanEncodeB i else quantize c.b) ∧
    (encodeColour i c m).getLsbD 15 = m

/-- R124: for every channel that is not a NaN, `q(c)` is the number of thresholds `T_k` that the clamped channel reaches:
the arithmetic form of R123 and the threshold form are the same function. -/
def Obligations.QuantizeCountsThresholds : Prop :=
  ∀ c : F32, isNaN c = false →
    (quantize c).toNat =
      (encodeThresholds.filter fun t => !flt32 (fclamp32 c 0x00000000#32 0x3F800000#32) t).length

/-- R125: `encode(decode(w)) = w` for all 65536 words, with DECODE's mask bit fed back. -/
def Obligations.DecodeEncodeRoundTrip : Prop :=
  ∀ (i : Nat) (w : Word), encodeColour i (decodeRgb w) (maskBit w) = w

/-- R126: for `c` in [0, 1], `decode(encode(c,c,c,0)).r` is `floor(fmul32(c, S))` over 31, as binary32. -/
def Obligations.ChannelRangeLaw : Prop :=
  ∀ (i : Nat) (c : F32), isFinite32 c = true → 0 ≤ real32 c → real32 c ≤ 1 →
    (decodeRgb (encodeColour i ⟨c, c, c⟩ false)).r
      = fdiv32 (f32OfNat ⌊real32 (fmul32 c 0x41FFFDF4#32)⌋.toNat) 0x41F80000#32

/-- R204's corner case and R200: an entry or texel 0x8000 stays 0x8000 under every finite modulation. -/
def Obligations.MaskedBlackStaysUnderFiniteModulation : Prop :=
  ∀ (i : Nat) (factor : Rgb), (∀ x ∈ [factor.r, factor.g, factor.b], isFinite32 x = true) →
    encodeColour i (modulate (decodeRgb 0x8000#16) factor) (maskBit 0x8000#16) = 0x8000#16

/-- R10: the bit patterns have IEEE-754's values, and `fmul32` is correctly rounded: a finite result is a nearest binary32
value to the exact product, with an even significand where another is as near. -/
def Obligations.MultiplyIsCorrectlyRounded : Prop :=
  ∀ a b : F32, isFinite32 a = true → isFinite32 b = true → isFinite32 (fmul32 a b) = true →
    ∀ y : F32, isFinite32 y = true →
      |real32 (fmul32 a b) - real32 a * real32 b| ≤ |real32 y - real32 a * real32 b| ∧
      (|real32 (fmul32 a b) - real32 a * real32 b| = |real32 y - real32 a * real32 b| →
        real32 y ≠ real32 (fmul32 a b) → (fmul32 a b).getLsbD 0 = false)

/-! ## Host port -/

/-- R235: VRAM_WRITE in IDLE with no reserved bit stores its word at the clamped address and answers 0x00000000; every
other byte and everything else is as before. -/
def Obligations.VramWriteStoresWord : Prop :=
  ∀ (x y w : Word) (s : State), s.ds = .idle → ∃ t, exec (.vramWrite x y w 0#16) s = .next t ∧
    readWord t.live (clampedAddr x y) = w ∧
    (∀ b : Nat, b / 2 ≠ (clampedAddr x y).toNat → readByte t.live b = readByte s.live b) ∧
    t = { s with live := t.live, responses := s.responses ++ [0x00000000#32] }

/-- R236: VRAM_WRITE while a draw is open is a protocol error and LIVE is unchanged. -/
def Obligations.VramWriteInsideDrawRefused : Prop :=
  ∀ (x y w rsv : Word) (s : State), s.ds ≠ .idle →
    exec (.vramWrite x y w rsv) s = .next { s with protoErr := true, responses := s.responses ++ [0x00000003#32] }

/-- R237: VRAM_READ with no draw open answers the word of LIVE at the clamped address and changes nothing. -/
def Obligations.VramReadReturnsWord : Prop :=
  ∀ (x y : Word) (s : State), s.ds = .idle →
    exec (.vramRead x y) s = .next
      { s with responses := s.responses ++ [readWord s.live (clampedAddr x y) ++ 0x0000#16] }

/-- R238: VRAM_READ inside a draw answers the word of LIVE or one that the draw has pending there, and changes nothing
(but the model's counter, log 4); where nothing is pending it is the word of LIVE. -/
def Obligations.VramReadInsideDrawPicks : Prop :=
  ∀ (x y : Word) (s : State), s.ds ≠ .idle → ∃ w,
    w ∈ readWord s.live (clampedAddr x y) :: pendAt s.pend (clampedAddr x y) ∧
    (pendAt s.pend (clampedAddr x y) = [] → w = readWord s.live (clampedAddr x y)) ∧
    exec (.vramRead x y) s = .next
      { s with choices := s.choices + 1, responses := s.responses ++ [w ++ 0x0000#16] }

/-- R239, R28: READ_STATUS answers STATUS in every state and changes nothing; each bit of STATUS is the one of the table,
and STATUS after reset is 0. -/
def Obligations.ReadStatusReturnsStatus : Prop :=
  (∀ s : State, exec .readStatus s = .next { s with responses := s.responses ++ [statusWord s ++ 0x0000#16] }) ∧
  (∀ s : State, ((statusWord s).getLsbD 0 = true ↔ s.ds ≠ .idle) ∧ ((statusWord s).getLsbD 1 = true ↔ s.ds = .failed) ∧
    (statusWord s).getLsbD 2 = s.cfgErr ∧ (statusWord s).getLsbD 3 = s.protoErr ∧
    (statusWord s).extractLsb' 4 2 = s.u.mode ∧ (statusWord s).getLsbD 6 = s.u.textured ∧
    (statusWord s).extractLsb' 7 9 = 0#9) ∧
  statusWord State.reset = 0x0000#16

/-- R299, R61: a committed word is seen by the very next command: a VRAM_READ after the END_DRAW of a draw with one word
pending at its address answers that word. -/
def Obligations.CommittedWordIsReadBack : Prop :=
  ∀ (x y w : Word) (s : State), s.Inv → s.ds = .opened → pendAt s.pend (clampedAddr x y) = [w] →
    ∃ t t', exec .endDraw s = .next t ∧ exec (.vramRead x y) t = .next t' ∧
      t'.responses = s.responses ++ [0x00000000#32, w ++ 0x0000#16]

/-! ## The whole machine -/

/-- R290: the machine after reset. Every word of LIVE is the open parameter `vram_init`. -/
def Obligations.ResetStateAsSpecified : Prop :=
  State.reset.ds = .idle ∧ State.reset.pend = [] ∧ State.reset.u = ⟨0#2, false, 0#16, 0#16, 0#16, 0#16, 0#32, 0#32, 0#32⟩ ∧
  State.reset.cfgErr = false ∧ State.reset.protoErr = false ∧
  ∀ a : WordAddr, readWord State.reset.live a = Config.vramInit (2 * a.toNat + 1) ++ Config.vramInit (2 * a.toNat)

/-- The invariant holds after reset. -/
def Obligations.ResetMeetsInvariant : Prop := State.reset.Inv

/-- Every step from every state that meets the invariant answers a next state that meets it: the machine never stops, VRAM
stays canonical, inside its 1024 x 512 extent and whole-worded, PEND stays canonical, inside the extent and empty outside
an OPEN draw, and the draw state agrees with the latched mode and with `CFG_ERR` (R20, R22, R51, R54, R55, R161, R260). -/
def Obligations.StepKeepsInvariant : Prop :=
  ∀ s : State, s.Inv → ∃ t, step s = .next t ∧ t.Inv

/-- R27: `CFG_ERR` is set exactly by an accepted BEGIN_DRAW with tag 3 and `PROTO_ERR` exactly by a protocol error; no
command clears either. -/
def Obligations.FlagsAreStickyAndExact : Prop :=
  ∀ (i : Instr) (s : State), ∃ t, exec i s = .next t ∧
    (t.cfgErr = true ↔ s.cfgErr = true ∨ (isBadBegin i = true ∧ s.ds = .idle)) ∧
    (t.protoErr = true ↔ s.protoErr = true ∨ violatesProtocol i s = true)

/-- R60, R56: every command but END_DRAW, ABORT_DRAW and VRAM_WRITE leaves every byte of VRAM as it is, and a VRAM_WRITE
does so too while a draw is open. -/
def Obligations.OnlyThreeCommandsChangeVram : Prop :=
  ∀ (i : Instr) (s t : State), exec i s = .next t → i ≠ .endDraw → i ≠ .abortDraw →
    ((∀ x y w rsv, i ≠ .vramWrite x y w rsv) ∨ s.ds ≠ .idle) → ∀ b : Nat, readByte t.live b = readByte s.live b

/-- R59, R26: along any run of steps inside one draw, VRAM and the uniform are what they were, so every texel and CLUT
read of the draw returns the word that LIVE held at its start, never a word the draw wrote; and PEND only grows. -/
def Obligations.DrawReadsItsSnapshot : Prop :=
  ∀ s t : State, s.ds ≠ .idle → WithinDraw s t →
    t.u = s.u ∧ (∀ a : WordAddr, readWord t.live a = readWord s.live a) ∧
    ∀ (a : WordAddr) (w : Word), w ∈ pendAt s.pend a → w ∈ pendAt t.pend a
end

