-- ==== Sys2Proof/Laws/State.lean ====
section
/-! SUPPORT. One lemma per field for each named update of the state, each true by rfl, so that no later proof unfolds a
record update. -/

namespace Sys2Proof.Machine

variable (s : State) (r : Cmd) (ws : List Cmd)

@[simp] theorem drew_live : s.drew.live = s.live := rfl
@[simp] theorem drew_pend : s.drew.pend = s.pend := rfl
@[simp] theorem drew_ds : s.drew.ds = s.ds := rfl
@[simp] theorem drew_u : s.drew.u = s.u := rfl
@[simp] theorem drew_cfgErr : s.drew.cfgErr = s.cfgErr := rfl
@[simp] theorem drew_protoErr : s.drew.protoErr = s.protoErr := rfl
@[simp] theorem drew_stream : s.drew.stream = s.stream := rfl
@[simp] theorem drew_responses : s.drew.responses = s.responses := rfl
@[simp] theorem drew_choices : s.drew.choices = s.choices + 1 := rfl

@[simp] theorem respond_live : (s.respond r).live = s.live := rfl
@[simp] theorem respond_pend : (s.respond r).pend = s.pend := rfl
@[simp] theorem respond_ds : (s.respond r).ds = s.ds := rfl
@[simp] theorem respond_u : (s.respond r).u = s.u := rfl
@[simp] theorem respond_cfgErr : (s.respond r).cfgErr = s.cfgErr := rfl
@[simp] theorem respond_protoErr : (s.respond r).protoErr = s.protoErr := rfl
@[simp] theorem respond_stream : (s.respond r).stream = s.stream := rfl
@[simp] theorem respond_responses : (s.respond r).responses = s.responses ++ [r] := rfl
@[simp] theorem respond_choices : (s.respond r).choices = s.choices := rfl

@[simp] theorem protocolError_live : s.protocolError.live = s.live := rfl
@[simp] theorem protocolError_pend : s.protocolError.pend = s.pend := rfl
@[simp] theorem protocolError_ds : s.protocolError.ds = s.ds := rfl
@[simp] theorem protocolError_u : s.protocolError.u = s.u := rfl
@[simp] theorem protocolError_cfgErr : s.protocolError.cfgErr = s.cfgErr := rfl
@[simp] theorem protocolError_protoErr : s.protocolError.protoErr = true := rfl
@[simp] theorem protocolError_stream : s.protocolError.stream = s.stream := rfl
@[simp] theorem protocolError_responses : s.protocolError.responses = s.responses ++ [rspStatus .protoError] := rfl
@[simp] theorem protocolError_choices : s.protocolError.choices = s.choices := rfl

@[simp] theorem configError_live : s.configError.live = s.live := rfl
@[simp] theorem configError_pend : s.configError.pend = s.pend := rfl
@[simp] theorem configError_ds : s.configError.ds = s.ds := rfl
@[simp] theorem configError_u : s.configError.u = s.u := rfl
@[simp] theorem configError_cfgErr : s.configError.cfgErr = s.cfgErr := rfl
@[simp] theorem configError_protoErr : s.configError.protoErr = s.protoErr := rfl
@[simp] theorem configError_stream : s.configError.stream = s.stream := rfl
@[simp] theorem configError_responses : s.configError.responses = s.responses ++ [rspStatus .cfgError] := rfl
@[simp] theorem configError_choices : s.configError.choices = s.choices := rfl

@[simp] theorem deliver_live : (s.deliver ws).live = s.live := rfl
@[simp] theorem deliver_pend : (s.deliver ws).pend = s.pend := rfl
@[simp] theorem deliver_ds : (s.deliver ws).ds = s.ds := rfl
@[simp] theorem deliver_u : (s.deliver ws).u = s.u := rfl
@[simp] theorem deliver_cfgErr : (s.deliver ws).cfgErr = s.cfgErr := rfl
@[simp] theorem deliver_protoErr : (s.deliver ws).protoErr = s.protoErr := rfl
@[simp] theorem deliver_stream : (s.deliver ws).stream = s.stream ++ ws := rfl
@[simp] theorem deliver_responses : (s.deliver ws).responses = s.responses := rfl
@[simp] theorem deliver_choices : (s.deliver ws).choices = s.choices := rfl

end Sys2Proof.Machine
end

