-- ==== Sys2Proof/Laws/Memory.lean ====
section
/-! SUPPORT. The laws of the sparse maps behind LIVE and PEND: what a read gives after a write, and that every operation
keeps the canonical form. -/

namespace Sys2Proof.Machine

/-! ## Sparse maps -/

/-- All keys of a list are above `k`. -/
abbrev keysAbove {α : Type} (k : Nat) (m : Sparse α) : Prop := ∀ a ∈ m.map Prod.fst, k < a

/-- Keys strictly rising. -/
abbrev Sparse.sorted {α : Type} (m : Sparse α) : Prop := (m.map Prod.fst).Pairwise (· < ·)

theorem sparseGet_of_keysAbove {α : Type} {k : Nat} {m : Sparse α} (h : keysAbove k m) : sparseGet k m = none := by
  induction m with
  | nil => rfl
  | cons e rest ih =>
    obtain ⟨j, v⟩ := e
    have hj : k < j := h j (by simp)
    have : k ≠ j := by omega
    simp only [sparseGet, this, if_false]
    exact ih fun a ha => h a (by simp only [List.map_cons, List.mem_cons]; exact .inr ha)

@[simp] theorem sparseGet_set_same {α : Type} (k : Nat) (v : α) (m : Sparse α) :
    sparseGet k (sparseSet k v m) = some v := by
  induction m with
  | nil => simp [sparseSet, sparseGet]
  | cons e rest ih =>
    obtain ⟨j, w⟩ := e
    simp only [sparseSet]
    split
    · simp [sparseGet]
    · split
      · simp [sparseGet]
      · rename_i h; simp [sparseGet, h, ih]

theorem sparseGet_set_other {α : Type} {k a : Nat} (v : α) (m : Sparse α) (h : a ≠ k) :
    sparseGet a (sparseSet k v m) = sparseGet a m := by
  induction m with
  | nil => simp [sparseSet, sparseGet, h]
  | cons e rest ih =>
    obtain ⟨j, w⟩ := e
    simp only [sparseSet]
    split
    · simp [sparseGet, h]
    · split
      · rename_i hkj; subst hkj; simp [sparseGet, h]
      · simp [sparseGet, ih]

/-- The keys after a set: the old ones and `k`. -/
theorem mem_keys_sparseSet {α : Type} (k a : Nat) (v : α) (m : Sparse α) :
    a ∈ (sparseSet k v m).map Prod.fst ↔ a = k ∨ a ∈ m.map Prod.fst := by
  induction m with
  | nil => simp [sparseSet]
  | cons e rest ih =>
    obtain ⟨j, w⟩ := e
    simp only [sparseSet]
    split
    · simp
    · split
      · rename_i hkj; subst hkj; simp
      · rw [List.map_cons, List.mem_cons, ih, List.map_cons, List.mem_cons]; tauto

/-- The entries after a set: `(k, v)`, or an old one at another key. -/
theorem mem_sparseSet {α : Type} {k : Nat} {v : α} {m : Sparse α} {e : Nat × α} (h : e ∈ sparseSet k v m) :
    e = (k, v) ∨ e ∈ m := by
  induction m with
  | nil => simpa [sparseSet] using h
  | cons d rest ih =>
    obtain ⟨j, w⟩ := d
    simp only [sparseSet] at h
    split at h
    · simpa using h
    · split at h
      · rcases List.mem_cons.1 h with h | h
        · exact .inl h
        · exact .inr (List.mem_cons_of_mem _ h)
      · rcases List.mem_cons.1 h with h | h
        · exact .inr (h ▸ List.mem_cons_self)
        · exact (ih h).imp id (List.mem_cons_of_mem _)

theorem sparseSet_sorted {α : Type} (k : Nat) (v : α) {m : Sparse α} (h : Sparse.sorted m) :
    Sparse.sorted (sparseSet k v m) := by
  induction m with
  | nil => simp [Sparse.sorted, sparseSet]
  | cons e rest ih =>
    obtain ⟨j, w⟩ := e
    simp only [Sparse.sorted, List.map_cons, List.pairwise_cons] at h
    obtain ⟨hj, hrest⟩ := h
    simp only [Sparse.sorted, sparseSet]
    split
    · rename_i hkj
      simp only [List.map_cons, List.pairwise_cons, List.mem_cons]
      refine ⟨?_, hj, hrest⟩
      rintro a (rfl | ha)
      · exact hkj
      · exact hkj.trans (hj a ha)
    · split
      · rename_i hkj; subst hkj
        simp only [List.map_cons, List.pairwise_cons]
        exact ⟨hj, hrest⟩
      · rename_i h1 h2
        simp only [List.map_cons, List.pairwise_cons]
        refine ⟨fun a ha => ?_, ih hrest⟩
        rcases (mem_keys_sparseSet k a v rest).1 ha with rfl | ha
        · omega
        · exact hj a ha

/-- A key's entry is what the list gives there. -/
theorem sparseGet_of_mem {α : Type} {m : Sparse α} (h : Sparse.sorted m) {k : Nat} {v : α} (he : (k, v) ∈ m) :
    sparseGet k m = some v := by
  induction m with
  | nil => simp at he
  | cons e rest ih =>
    obtain ⟨j, w⟩ := e
    simp only [Sparse.sorted, List.map_cons, List.pairwise_cons] at h
    rcases List.mem_cons.1 he with he | he
    · cases he; simp [sparseGet]
    · have hjk : j < k := h.1 k (List.mem_map.2 ⟨(k, v), he, rfl⟩)
      have : k ≠ j := by omega
      simp only [sparseGet, this, if_false]
      exact ih h.2 he

theorem mem_of_sparseGet {α : Type} {m : Sparse α} {k : Nat} {v : α} (h : sparseGet k m = some v) : (k, v) ∈ m := by
  induction m with
  | nil => simp [sparseGet] at h
  | cons e rest ih =>
    obtain ⟨j, w⟩ := e
    simp only [sparseGet] at h
    split at h
    · rename_i hk; cases hk; cases h; exact List.mem_cons_self
    · exact List.mem_cons_of_mem _ (ih h)

/-- Two canonical lists that give the same at every key are the same list. -/
theorem sparse_ext {α : Type} {m n : Sparse α} (hm : Sparse.sorted m) (hn : Sparse.sorted n)
    (h : ∀ k, sparseGet k m = sparseGet k n) : m = n := by
  induction m generalizing n with
  | nil =>
    cases n with
    | nil => rfl
    | cons e rest => have := h e.1; simp [sparseGet] at this
  | cons d ms ih =>
    obtain ⟨j, v⟩ := d
    cases n with
    | nil => have := h j; simp [sparseGet] at this
    | cons e ns =>
      obtain ⟨k, w⟩ := e
      simp only [Sparse.sorted, List.map_cons, List.pairwise_cons] at hm hn
      have hjk : j = k := by
        rcases Nat.lt_trichotomy j k with hlt | heq | hgt
        · have hj := h j
          have hne : j ≠ k := by omega
          simp only [sparseGet, if_true, hne, if_false] at hj
          rw [sparseGet_of_keysAbove fun a ha => hlt.trans (hn.1 a ha)] at hj
          cases hj
        · exact heq
        · have hk := h k
          have hne : k ≠ j := by omega
          simp only [sparseGet, if_true, hne, if_false] at hk
          rw [sparseGet_of_keysAbove fun a ha => hgt.trans (hm.1 a ha)] at hk
          cases hk
      subst hjk
      have hv := h j
      simp only [sparseGet, if_true, Option.some.injEq] at hv
      subst hv
      congr 1
      refine ih hm.2 hn.2 fun a => ?_
      by_cases ha : a = j
      · subst ha
        rw [sparseGet_of_keysAbove hm.1, sparseGet_of_keysAbove hn.1]
      · simpa [sparseGet, ha] using h a

/-! ## VRAM -/

theorem wordAddr_lt (a : WordAddr) : a.toNat < 2 ^ 19 := a.isLt

/-- The whole of a write, through the read of one byte (R52, R54). -/
theorem readByte_writeWord (m : Memory) (a : WordAddr) (w : Word) (b : Nat) :
    readByte (writeWord m a w) b =
      if b = 2 * a.toNat then w.extractLsb' 0 8 else if b = 2 * a.toNat + 1 then w.extractLsb' 8 8 else readByte m b := by
  unfold readByte writeWord
  split
  · rename_i h; subst h
    rw [sparseGet_set_other _ _ (by omega), sparseGet_set_same]; rfl
  · split
    · rename_i h; subst h; rw [sparseGet_set_same]; rfl
    · rename_i h1 h2
      rw [sparseGet_set_other _ _ h2, sparseGet_set_other _ _ h1]

theorem halves_append (w : Word) : w.extractLsb' 8 8 ++ w.extractLsb' 0 8 = w := by
  ext i hi
  simp only [BitVec.getElem_append, BitVec.getElem_extractLsb']
  split
  · rw [Nat.zero_add, BitVec.getLsbD_eq_getElem]
  · rw [show 8 + (i - 8) = i by omega, BitVec.getLsbD_eq_getElem]

@[simp] theorem readWord_writeWord_same (m : Memory) (a : WordAddr) (w : Word) : readWord (writeWord m a w) a = w := by
  unfold readWord
  rw [readByte_writeWord, readByte_writeWord]
  simp [halves_append]

theorem readWord_writeWord_other (m : Memory) {a b : WordAddr} (w : Word) (h : b ≠ a) :
    readWord (writeWord m a w) b = readWord m b := by
  have hne : b.toNat ≠ a.toNat := fun e => h (BitVec.eq_of_toNat_eq e)
  unfold readWord
  rw [readByte_writeWord, readByte_writeWord, if_neg (by omega), if_neg (by omega), if_neg (by omega),
    if_neg (by omega)]

theorem writeWord_wf {m : Memory} (h : Memory.wf m) (a : WordAddr) (w : Word) : Memory.wf (writeWord m a w) := by
  refine ⟨sparseSet_sorted _ _ (sparseSet_sorted _ _ h.1), fun b hb => ?_⟩
  have ha := wordAddr_lt a
  rcases (mem_keys_sparseSet _ _ _ _).1 hb with rfl | hb
  · omega
  · rcases (mem_keys_sparseSet _ _ _ _).1 hb with rfl | hb
    · omega
    · exact h.2 b hb

theorem mem_keys_writeWord (m : Memory) (a : WordAddr) (w : Word) (b : Nat) :
    b ∈ (writeWord m a w).map Prod.fst ↔ b = 2 * a.toNat + 1 ∨ b = 2 * a.toNat ∨ b ∈ m.map Prod.fst := by
  unfold writeWord; rw [mem_keys_sparseSet, mem_keys_sparseSet]

theorem writeWord_whole {m : Memory} (h : Memory.whole m) (a : WordAddr) (w : Word) :
    Memory.whole (writeWord m a w) := by
  intro b hb
  rw [mem_keys_writeWord, mem_keys_writeWord]
  rcases (mem_keys_writeWord _ _ _ _).1 hb with rfl | rfl | hb
  · constructor <;> omega
  · constructor <;> omega
  · exact ⟨.inr (.inr (h b hb).1), .inr (.inr (h b hb).2)⟩

/-! ## Pending writes -/

theorem mem_setInsert (w v : Word) (l : List Word) : v ∈ setInsert w l ↔ v = w ∨ v ∈ l := by
  induction l with
  | nil => simp [setInsert]
  | cons x rest ih =>
    simp only [setInsert]
    split
    · simp
    · split
      · rename_i h; subst h; simp
      · rw [List.mem_cons, ih, List.mem_cons]; tauto

theorem setInsert_ne_nil (w : Word) (l : List Word) : setInsert w l ≠ [] := fun h => by
  have := (mem_setInsert w w l).2 (.inl rfl); rw [h] at this; simp at this

theorem setInsert_sorted (w : Word) {l : List Word} (h : (l.map BitVec.toNat).Pairwise (· < ·)) :
    ((setInsert w l).map BitVec.toNat).Pairwise (· < ·) := by
  induction l with
  | nil => simp [setInsert]
  | cons x rest ih =>
    simp only [List.map_cons, List.pairwise_cons] at h
    simp only [setInsert]
    split
    · rename_i hlt
      simp only [List.map_cons, List.pairwise_cons, List.mem_cons]
      refine ⟨?_, h⟩
      rintro a (rfl | ha)
      · exact hlt
      · exact hlt.trans (h.1 a ha)
    · split
      · simpa using h
      · rename_i h1 h2
        simp only [List.map_cons, List.pairwise_cons]
        refine ⟨fun a ha => ?_, ih h.2⟩
        obtain ⟨v, hv, rfl⟩ := List.mem_map.1 ha
        rcases (mem_setInsert _ _ _).1 hv with rfl | hv
        · have : v.toNat ≠ x.toNat := fun e => h2 (BitVec.eq_of_toNat_eq e)
          omega
        · exact h.1 _ (List.mem_map_of_mem hv)

/-- The whole of a pending write, at every address (R11, R22). -/
theorem pendAt_pendWrite (p : Pending) (a b : WordAddr) (w : Word) :
    pendAt (pendWrite p a w) b = if b = a then setInsert w (pendAt p a) else pendAt p b := by
  by_cases h : b = a
  · subst h; simp [pendAt, pendWrite]
  · have hne : b.toNat ≠ a.toNat := fun e => h (BitVec.eq_of_toNat_eq e)
    rw [if_neg h, pendAt, pendWrite, sparseGet_set_other _ _ hne, ← pendAt]

theorem pendAt_mem {p : Pending} {a : WordAddr} (h : pendAt p a ≠ []) : (a.toNat, pendAt p a) ∈ p := by
  unfold pendAt at h ⊢
  cases hg : sparseGet a.toNat p with
  | none => simp [hg] at h
  | some l => simpa using mem_of_sparseGet hg

theorem pendWrite_wf {p : Pending} (h : Pending.wf p) (a : WordAddr) (w : Word) : Pending.wf (pendWrite p a w) := by
  obtain ⟨hs, hr, hn, ho⟩ := h
  refine ⟨sparseSet_sorted _ _ hs, fun e he => ?_, fun e he => ?_, fun e he => ?_⟩
  · rcases mem_sparseSet he with rfl | he
    · exact wordAddr_lt a
    · exact hr e he
  · rcases mem_sparseSet he with rfl | he
    · exact setInsert_ne_nil _ _
    · exact hn e he
  · rcases mem_sparseSet he with rfl | he
    · refine setInsert_sorted _ ?_
      by_cases hp : pendAt p a = []
      · simp [hp]
      · exact ho _ (pendAt_mem hp)
    · exact ho e he

end Sys2Proof.Machine
end

