-- ==== Sys2Proof/Laws/Ops.lean ====
section
/-! SUPPORT. For each shared operation, once, everything it can do: the `choose` draw, the commits, the error outcomes,
BEGIN_DRAW, the fragment prologue and end, and the step. -/

namespace Sys2Proof.Machine

/-! ## Draws and commits -/

/-- `choose` gives an element of its set (R12). -/
theorem choose_mem {α : Type} (i : Nat) (x : α) (xs : List α) : choose i x xs ∈ x :: xs := by
  have hlt : i % (xs.length + 1) < (x :: xs).length := by
    rw [List.length_cons]; exact Nat.mod_lt _ (Nat.succ_pos _)
  unfold choose
  rw [List.getD_eq_getElem _ _ hlt]
  exact List.getElem_mem hlt

/-- Every element of the set is chosen by some draw (R12). -/
theorem choose_surjective {α : Type} (x y : α) (xs : List α) (h : y ∈ x :: xs) : ∃ i, choose i x xs = y := by
  obtain ⟨i, hi, rfl⟩ := List.getElem_of_mem h
  refine ⟨i, ?_⟩
  have : i % (xs.length + 1) = i := Nat.mod_eq_of_lt (by simpa using hi)
  unfold choose
  rw [this, List.getD_eq_getElem _ _ hi]

@[simp] theorem choose_nil {α : Type} (i : Nat) (x : α) : choose i x [] = x := by simp [choose, Nat.mod_one]

/-- One entry of END_DRAW's commit: nothing, or one whole word of the set at its address (R232). -/
theorem commitEntry_cases (i : Nat) (m : Memory) (k : Nat) (ws : List Word) :
    (ws = [] ∧ commitEntry i m (k, ws) = m) ∨
      ∃ w ∈ ws, commitEntry i m (k, ws) = writeWord m (BitVec.ofNat 19 k) w := by
  cases ws with
  | nil => exact .inl ⟨rfl, rfl⟩
  | cons w rest => exact .inr ⟨_, choose_mem _ w rest, rfl⟩

/-- One entry of ABORT_DRAW: nothing, or one whole word of the set at its address (R234). -/
theorem abortEntry_cases (i : Nat) (m : Memory) (k : Nat) (ws : List Word) :
    abortEntry i m (k, ws) = m ∨ ∃ w ∈ ws, abortEntry i m (k, ws) = writeWord m (BitVec.ofNat 19 k) w := by
  have hm := choose_mem (Config.abortKeep i k) none (ws.map some)
  unfold abortEntry
  cases hc : choose (Config.abortKeep i k) none (ws.map some) with
  | none => exact .inl (by simp)
  | some w =>
    rw [hc] at hm
    simp only [List.mem_cons, reduceCtorEq, List.mem_map, Option.some.injEq, exists_eq_right, false_or] at hm
    exact .inr ⟨w, hm, by simp⟩

/-- A fold of whole-word writes, one entry after another, keeps the canonical form and the whole words. -/
theorem foldl_keeps {f : Memory → Nat × List Word → Memory}
    (hf : ∀ m k ws, f m (k, ws) = m ∨ ∃ w ∈ ws, f m (k, ws) = writeWord m (BitVec.ofNat 19 k) w)
    (p : Pending) {m : Memory} (hw : Memory.wf m) (hh : Memory.whole m) :
    Memory.wf (p.foldl f m) ∧ Memory.whole (p.foldl f m) := by
  induction p generalizing m with
  | nil => exact ⟨hw, hh⟩
  | cons e rest ih =>
    obtain ⟨k, ws⟩ := e
    rw [List.foldl_cons]
    rcases hf m k ws with h | ⟨w, -, h⟩ <;> rw [h]
    · exact ih hw hh
    · exact ih (writeWord_wf hw _ _) (writeWord_whole hh _ _)

/-- A byte whose word no entry names is left alone by a fold of whole-word writes. -/
theorem foldl_readByte {f : Memory → Nat × List Word → Memory}
    (hf : ∀ m k ws, f m (k, ws) = m ∨ ∃ w ∈ ws, f m (k, ws) = writeWord m (BitVec.ofNat 19 k) w)
    (p : Pending) (m : Memory) (b : Nat) (hb : ∀ e ∈ p, b / 2 ≠ e.1 % 2 ^ 19) :
    readByte (p.foldl f m) b = readByte m b := by
  induction p generalizing m with
  | nil => rfl
  | cons e rest ih =>
    obtain ⟨k, ws⟩ := e
    rw [List.foldl_cons, ih _ fun e he => hb e (List.mem_cons_of_mem _ he)]
    rcases hf m k ws with h | ⟨w, -, h⟩ <;> rw [h]
    have hne := hb (k, ws) List.mem_cons_self
    rw [readByte_writeWord, BitVec.toNat_ofNat, if_neg (by omega), if_neg (by omega)]

/-- A word that no entry names is left alone by a fold of whole-word writes. -/
theorem foldl_readWord_other {f : Memory → Nat × List Word → Memory}
    (hf : ∀ m k ws, f m (k, ws) = m ∨ ∃ w ∈ ws, f m (k, ws) = writeWord m (BitVec.ofNat 19 k) w)
    (p : Pending) (m : Memory) (a : WordAddr) (ha : ∀ e ∈ p, a.toNat ≠ e.1 % 2 ^ 19) :
    readWord (p.foldl f m) a = readWord m a := by
  unfold readWord
  rw [foldl_readByte hf _ _ _ fun e he => by have := ha e he; omega,
    foldl_readByte hf _ _ _ fun e he => by have := ha e he; omega]

/-- At an entry's own address a fold of whole-word writes over a canonical PEND does that entry's write and no other. -/
theorem foldl_readWord_mem {f : Memory → Nat × List Word → Memory}
    (hf : ∀ m k ws, f m (k, ws) = m ∨ ∃ w ∈ ws, f m (k, ws) = writeWord m (BitVec.ofNat 19 k) w)
    {p : Pending} (hs : Sparse.sorted p) (hr : ∀ e ∈ p, e.1 < 2 ^ 19) (m : Memory) {a : WordAddr} {ws : List Word}
    (ha : (a.toNat, ws) ∈ p) :
    ∃ m', readWord m' a = readWord m a ∧ readWord (p.foldl f m) a = readWord (f m' (a.toNat, ws)) a := by
  induction p generalizing m with
  | nil => simp at ha
  | cons e rest ih =>
    obtain ⟨k, vs⟩ := e
    simp only [Sparse.sorted, List.map_cons, List.pairwise_cons] at hs
    have hrest : ∀ e ∈ rest, e.1 < 2 ^ 19 := fun e he => hr e (List.mem_cons_of_mem _ he)
    rcases List.mem_cons.1 ha with he | he
    · cases he
      refine ⟨m, rfl, ?_⟩
      rw [List.foldl_cons]
      refine foldl_readWord_other hf rest _ a fun e he => ?_
      have := hs.1 e.1 (List.mem_map_of_mem he)
      have := hrest e he
      rw [Nat.mod_eq_of_lt (by assumption)]
      omega
    · obtain ⟨m', h1, h2⟩ := ih hs.2 hrest (f m (k, vs)) he
      refine ⟨m', h1.trans ?_, h2⟩
      have hk : k < 2 ^ 19 := hr (k, vs) List.mem_cons_self
      have hka : k < a.toNat := hs.1 _ (List.mem_map_of_mem he)
      rcases hf m k vs with h | ⟨w, -, h⟩ <;> rw [h]
      refine readWord_writeWord_other _ _ fun hc => ?_
      have := congrArg BitVec.toNat hc
      rw [BitVec.toNat_ofNat, Nat.mod_eq_of_lt hk] at this
      omega

theorem commitEntry_writes (i : Nat) (m : Memory) (k : Nat) (ws : List Word) :
    commitEntry i m (k, ws) = m ∨ ∃ w ∈ ws, commitEntry i m (k, ws) = writeWord m (BitVec.ofNat 19 k) w :=
  (commitEntry_cases i m k ws).imp And.right id

/-- The whole of END_DRAW's commit on LIVE, word by word (R232). -/
theorem readWord_commitAll {p : Pending} (hp : Pending.wf p) (i : Nat) (m : Memory) (a : WordAddr) :
    (pendAt p a = [] ∧ readWord (commitAll i m p) a = readWord m a) ∨ readWord (commitAll i m p) a ∈ pendAt p a := by
  by_cases h : pendAt p a = []
  · refine .inl ⟨h, foldl_readWord_other (commitEntry_writes i) p m a fun e he hc => ?_⟩
    rw [Nat.mod_eq_of_lt (hp.2.1 e he)] at hc
    have hg := sparseGet_of_mem hp.1 (k := e.1) (v := e.2) he
    rw [← hc] at hg
    exact hp.2.2.1 e he (by simpa [pendAt, hg] using h)
  · obtain ⟨m', -, h2⟩ := foldl_readWord_mem (commitEntry_writes i) hp.1 hp.2.1 m (pendAt_mem h)
    rcases commitEntry_cases i m' a.toNat (pendAt p a) with ⟨hc, -⟩ | ⟨w, hw, hc⟩
    · exact absurd hc h
    · right
      rw [commitAll, h2, hc, BitVec.ofNat_toNat, BitVec.setWidth_eq, readWord_writeWord_same]
      exact hw

/-- The whole of ABORT_DRAW's effect on LIVE, word by word (R234). -/
theorem readWord_abortAll {p : Pending} (hp : Pending.wf p) (i : Nat) (m : Memory) (a : WordAddr) :
    readWord (abortAll i m p) a = readWord m a ∨ readWord (abortAll i m p) a ∈ pendAt p a := by
  by_cases h : pendAt p a = []
  · refine .inl (foldl_readWord_other (abortEntry_cases i) p m a fun e he hc => ?_)
    rw [Nat.mod_eq_of_lt (hp.2.1 e he)] at hc
    have hg := sparseGet_of_mem hp.1 (k := e.1) (v := e.2) he
    rw [← hc] at hg
    exact hp.2.2.1 e he (by simpa [pendAt, hg] using h)
  · obtain ⟨m', h1, h2⟩ := foldl_readWord_mem (abortEntry_cases i) hp.1 hp.2.1 m (pendAt_mem h)
    rcases abortEntry_cases i m' a.toNat (pendAt p a) with hc | ⟨w, hw, hc⟩
    · exact .inl (by rw [abortAll, h2, hc, h1])
    · right
      rw [abortAll, h2, hc, BitVec.ofNat_toNat, BitVec.setWidth_eq, readWord_writeWord_same]
      exact hw

/-! ## Error outcomes -/

theorem rspStatus_ok : rspStatus .ok = 0x00000000#32 := by decide
theorem rspStatus_discarded : rspStatus .discarded = 0x00000001#32 := by decide
theorem rspStatus_cfgError : rspStatus .cfgError = 0x00000002#32 := by decide
theorem rspStatus_protoError : rspStatus .protoError = 0x00000003#32 := by decide

/-- Every field of a response word (R88). -/
theorem rspWord_fields (w : Word) (tm : Bool) (st : Status) :
    rspSt (rspWord w tm st) = st.code ∧ (rspWord w tm st).getLsbD 3 = tm ∧
      (rspWord w tm st).extractLsb' 4 12 = 0#12 ∧ (rspWord w tm st).extractLsb' 16 16 = w := by
  have hc : st.code.toNat < 8 := st.code.isLt
  have hb : (BitVec.ofBool tm).toNat < 2 := (BitVec.ofBool tm).isLt
  have hw := w.isLt
  have ht : (rspWord w tm st).toNat = w.toNat * 65536 + (BitVec.ofBool tm).toNat * 8 + st.code.toNat := by
    rw [show (rspWord w tm st).toNat = (w ++ 0#12 ++ BitVec.ofBool tm ++ st.code : BitVec (16 + 12 + 1 + 3)).toNat from rfl,
      BitVec.toNat_append, BitVec.toNat_append, BitVec.toNat_append, ← Nat.shiftLeft_add_eq_or_of_lt (by simpa using hc),
      ← Nat.shiftLeft_add_eq_or_of_lt (by simpa using hb), ← Nat.shiftLeft_add_eq_or_of_lt (by simp)]
    cases tm <;> simp [Nat.shiftLeft_eq] <;> omega
  generalize hx : (BitVec.ofBool tm).toNat = x at ht hb
  refine ⟨?_, ?_, ?_, ?_⟩
  · apply BitVec.eq_of_toNat_eq; simp [rspSt, BitVec.extractLsb'_toNat, ht]; omega
  · rw [BitVec.getLsbD, ht, Nat.testBit_eq_decide_div_mod_eq]
    cases tm <;> simp at hx ⊢ <;> omega
  · apply BitVec.eq_of_toNat_eq; simp [BitVec.extractLsb'_toNat, ht, Nat.shiftRight_eq_div_pow]; omega
  · apply BitVec.eq_of_toNat_eq; simp [BitVec.extractLsb'_toNat, ht, Nat.shiftRight_eq_div_pow]; omega

/-- The whole of a protocol error (R262). -/
theorem protocolError_eq (s : State) : s.protocolError = refusedBy s := by
  unfold State.protocolError State.respond refusedBy; rw [rspStatus_protoError]

/-- The whole of CFG_ERROR for a FRAGMENT (R225). -/
theorem configError_eq (s : State) : s.configError = answered s 0x00000002#32 := by
  unfold State.configError State.respond answered; rw [rspStatus_cfgError]

/-! ## Commands -/

/-- Everything BEGIN_DRAW with a valid tag can do (R222, R241). -/
theorem beginDraw_cases (mode : BitVec 2) (t : Bool) (d : DrawIn) (s : State) :
    (s.ds = .idle ∧ beginDraw mode t d s =
      { s with u := latch mode t d, pend := [], ds := .opened, responses := s.responses ++ [0x00000000#32] }) ∨
    (s.ds ≠ .idle ∧ beginDraw mode t d s = refusedBy s) := by
  unfold beginDraw
  cases h : s.ds <;> simp [State.respond, rspStatus_ok, protocolError_eq]

/-- Everything BEGIN_DRAW with tag 3 can do (R223, R241). -/
theorem beginFailed_cases (t : Bool) (d : DrawIn) (s : State) :
    (s.ds = .idle ∧ beginFailed t d s =
      { s with u := latch 3#2 t d, cfgErr := true, ds := .failed, responses := s.responses ++ [0x00000002#32] }) ∨
    (s.ds ≠ .idle ∧ beginFailed t d s = refusedBy s) := by
  unfold beginFailed
  cases h : s.ds <;> simp [State.respond, rspStatus_cfgError, protocolError_eq]

/-- Everything a FRAGMENT on one path can do before the path runs (R224 to R226). -/
theorem onPath_cases (path : State → State) (s : State) :
    (s.ds = .idle ∧ onPath path s = refusedBy s) ∨ (s.ds = .failed ∧ onPath path s = answered s 0x00000002#32) ∨
      (s.ds = .opened ∧ onPath path s = path s) := by
  unfold onPath
  cases h : s.ds <;> simp [protocolError_eq, configError_eq]

/-- Everything the end of a fragment path can do (R184, R209, R210). -/
theorem finishPixel_cases (f : FragIn) (p : Pixel) (s : State) :
    (p = none ∧ finishPixel f p s =
      { s with choices := s.choices + 1, responses := s.responses ++ [0x00000001#32] }) ∨
    ∃ out tm, p = some (out, tm) ∧ finishPixel f p s =
      { s with choices := s.choices + 1, pend := pendWrite s.pend (clampedAddr f.dstX f.dstY) out,
               responses := s.responses ++ [rspWord out tm .ok] } := by
  rcases p with _ | ⟨out, tm⟩
  · exact .inl ⟨rfl, by simp [finishPixel, State.respond, State.drew, rspStatus_discarded]⟩
  · exact .inr ⟨out, tm, rfl, rfl⟩

/-- Everything END_DRAW can do (R230 to R232). -/
theorem execEndDraw_cases (s : State) :
    (s.ds = .idle ∧ execEndDraw s = .next (refusedBy s)) ∨
    (s.ds = .failed ∧ execEndDraw s = .next { s with ds := .idle, responses := s.responses ++ [0x00000000#32] }) ∨
    (s.ds = .opened ∧ execEndDraw s =
      .next { s with live := commitAll s.choices s.live s.pend, pend := [], ds := .idle, choices := s.choices + 1,
                     responses := s.responses ++ [0x00000000#32] }) := by
  unfold execEndDraw
  cases h : s.ds <;> simp [protocolError_eq, State.respond, State.drew, rspStatus_ok]

/-- Everything ABORT_DRAW can do (R233, R234). -/
theorem execAbortDraw_cases (s : State) :
    (s.ds = .idle ∧ execAbortDraw s = .next (refusedBy s)) ∨
    (s.ds ≠ .idle ∧ execAbortDraw s =
      .next { s with live := abortAll s.choices s.live s.pend, pend := [], ds := .idle, choices := s.choices + 1,
                     responses := s.responses ++ [0x00000000#32] }) := by
  unfold execAbortDraw
  cases h : s.ds <;> simp [protocolError_eq, State.respond, State.drew, rspStatus_ok]

/-- Everything VRAM_WRITE can do (R221, R235, R236). -/
theorem execVramWrite_cases (x y w rsv : Word) (s : State) :
    ((rsv ≠ 0#16 ∨ s.ds ≠ .idle) ∧ execVramWrite x y w rsv s = .next (refusedBy s)) ∨
    (rsv = 0#16 ∧ s.ds = .idle ∧ execVramWrite x y w rsv s =
      .next { s with live := writeWord s.live (clampedAddr x y) w, responses := s.responses ++ [0x00000000#32] }) := by
  unfold execVramWrite
  by_cases hr : rsv = 0#16
  · cases h : s.ds <;> simp [hr, protocolError_eq, State.respond, rspStatus_ok]
  · simp [hr, protocolError_eq]

/-- Everything VRAM_READ can do (R237, R238). -/
theorem execVramRead_cases (x y : Word) (s : State) :
    (s.ds = .idle ∧ execVramRead x y s =
      .next (answered s (rspWord (readWord s.live (clampedAddr x y)) false .ok))) ∨
    (s.ds ≠ .idle ∧ ∃ w ∈ readWord s.live (clampedAddr x y) :: pendAt s.pend (clampedAddr x y),
      execVramRead x y s =
        .next { s with choices := s.choices + 1, responses := s.responses ++ [rspWord w false .ok] }) := by
  unfold execVramRead
  cases h : s.ds
  · exact .inl ⟨rfl, rfl⟩
  · exact .inr ⟨by simp, _, choose_mem (Config.readPick s.choices) _ _, by simp [State.respond, State.drew, h]⟩
  · exact .inr ⟨by simp, _, choose_mem (Config.readPick s.choices) _ _, by simp [State.respond, State.drew, h]⟩

/-! ## The step -/

/-- Everything a step can do: idle, or take one packet and execute it (R220, R272). -/
theorem step_cases (s : State) :
    (∃ e, decode s.stream = .error e ∧ step s = .next s) ∨
      ∃ i rest, decode s.stream = .ok (i, rest) ∧ step s = exec i { s with stream := rest } := by
  unfold step
  cases h : decode s.stream with
  | error e => exact .inl ⟨e, rfl, rfl⟩
  | ok p => exact .inr ⟨p.1, p.2, rfl, rfl⟩

end Sys2Proof.Machine
end

