-- ==== Sys2Proof/Laws/Exec.lean ====
section
/-! SUPPORT. What each instruction can do, over the shared operations' lemmas: one inversion for BEGIN_DRAW's rows, one for
FRAGMENT and its PATH rows, and one for every instruction. -/

namespace Sys2Proof.Machine

/-- In an OPEN draw FRAGMENT is the row that `ctrl` selects (R224). -/
theorem exec_fragment_opened (f : FragIn) {s : State} (h : s.ds = .opened) :
    exec (.fragment f) s = exec ((decodePath s.u.ctrl).row f) s := by
  show execFragment f s = _
  unfold execFragment
  rw [h]
  cases decodePath s.u.ctrl <;> rfl

theorem onPath_opened (path : State → State) {s : State} (h : s.ds = .opened) : onPath path s = path s := by
  simp [onPath, h]

/-- What a row that is one path under the fragment prologue can do. -/
theorem onPath_row_cases {f : FragIn} {s : State} {i : Instr} (path : State → State)
    (he : exec i s = .next (onPath path s))
    (hp : path s = answered s 0x00000002#32 ∨ ∃ p, path s = finishPixel f p s) :
    (s.ds = .idle ∧ exec i s = .next (refusedBy s)) ∨
    (s.ds = .failed ∧ exec i s = .next (answered s 0x00000002#32)) ∨
    (s.ds = .opened ∧ (exec i s = .next (answered s 0x00000002#32) ∨ ∃ p, exec i s = .next (finishPixel f p s))) := by
  rcases onPath_cases path s with ⟨h, h'⟩ | ⟨h, h'⟩ | ⟨h, h'⟩
  · exact .inl ⟨h, by rw [he, h']⟩
  · exact .inr (.inl ⟨h, by rw [he, h']⟩)
  · refine .inr (.inr ⟨h, ?_⟩)
    rw [he, h']
    exact hp.imp (fun h => by rw [h]) fun ⟨p, h⟩ => ⟨p, by rw [h]⟩

/-- Everything FRAGMENT and each PATH row can do (R224 to R226, R204 to R207). -/
theorem exec_fragmentRow_cases {f : FragIn} (s : State) {i : Instr} (hi : i ∈ fragmentRows f) :
    (s.ds = .idle ∧ exec i s = .next (refusedBy s)) ∨
    (s.ds = .failed ∧ exec i s = .next (answered s 0x00000002#32)) ∨
    (s.ds = .opened ∧ (exec i s = .next (answered s 0x00000002#32) ∨ ∃ p, exec i s = .next (finishPixel f p s))) := by
  have hc := configError_eq s
  have r0 := onPath_row_cases (f := f) (i := .fragShade0 f) _ rfl (.inr ⟨shadePixel s f, rfl⟩)
  have r1 := onPath_row_cases (f := f) (i := .fragShade1 f) _ rfl (.inr ⟨shadePixel s f, rfl⟩)
  have r2 := onPath_row_cases (f := f) (i := .fragShade2 f) _ rfl (.inr ⟨shadePixel s f, rfl⟩)
  have r3 := onPath_row_cases (f := f) (i := .pathInvalid3 f) _ rfl (.inl hc)
  have r4 := onPath_row_cases (f := f) (i := .fragTex4 f) _ rfl (.inr ⟨tex4Pixel s f, rfl⟩)
  have r5 := onPath_row_cases (f := f) (i := .fragTex8 f) _ rfl (.inr ⟨tex8Pixel s f, rfl⟩)
  have r6 := onPath_row_cases (f := f) (i := .fragTex15 f) _ rfl (.inr ⟨tex15Pixel s f, rfl⟩)
  have r7 := onPath_row_cases (f := f) (i := .pathInvalid7 f) _ rfl (.inl hc)
  simp only [fragmentRows, List.mem_cons, List.not_mem_nil, or_false] at hi
  rcases hi with rfl | rfl | rfl | rfl | rfl | rfl | rfl | rfl | rfl
  · cases hds : s.ds
    · exact .inl ⟨rfl, by show execFragment f s = _; unfold execFragment; rw [hds, protocolError_eq]⟩
    · rw [exec_fragment_opened f hds]
      rw [hds] at r0 r1 r2 r3 r4 r5 r6 r7
      generalize decodePath s.u.ctrl = p
      cases p
      exacts [r0, r1, r2, r3, r4, r5, r6, r7]
    · exact .inr (.inl ⟨rfl, by show execFragment f s = _; unfold execFragment; rw [hds, hc]⟩)
  exacts [r0, r1, r2, r3, r4, r5, r6, r7]

/-- Every BEGIN_DRAW row is the shared operation on its `mode` and `t` (R222, R223). -/
theorem exec_begin_cases {i : Instr} (s : State) (hi : isBegin i = true) :
    ∃ d t, (∃ mode, mode ≠ 3#2 ∧ isBadBegin i = false ∧ exec i s = .next (beginDraw mode t d s)) ∨
      (isBadBegin i = true ∧ exec i s = .next (beginFailed t d s)) := by
  cases i with
  | beginShade0 d => exact ⟨d, false, .inl ⟨0#2, by decide, rfl, rfl⟩⟩
  | beginShade1 d => exact ⟨d, false, .inl ⟨1#2, by decide, rfl, rfl⟩⟩
  | beginShade2 d => exact ⟨d, false, .inl ⟨2#2, by decide, rfl, rfl⟩⟩
  | beginBadU d => exact ⟨d, false, .inr ⟨rfl, rfl⟩⟩
  | beginTex4 d => exact ⟨d, true, .inl ⟨0#2, by decide, rfl, rfl⟩⟩
  | beginTex8 d => exact ⟨d, true, .inl ⟨1#2, by decide, rfl, rfl⟩⟩
  | beginTex15 d => exact ⟨d, true, .inl ⟨2#2, by decide, rfl, rfl⟩⟩
  | beginBadT d => exact ⟨d, true, .inr ⟨rfl, rfl⟩⟩
  | fragment _ | fragShade0 _ | fragShade1 _ | fragShade2 _ | pathInvalid3 _ | fragTex4 _ | fragTex8 _ | fragTex15 _
  | pathInvalid7 _ | endDraw | abortDraw | vramWrite _ _ _ _ | vramRead _ _ | readStatus | reserved7 | illegal _ _ =>
    simp [isBegin] at hi

/-- The groups of instructions, each with its inversion: a case split for claims over all instructions. -/
theorem instr_groups (i : Instr) :
    isBegin i = true ∨ (∃ f, i ∈ fragmentRows f) ∨ i = .endDraw ∨ i = .abortDraw ∨ (∃ x y w rsv, i = .vramWrite x y w rsv) ∨
      (∃ x y, i = .vramRead x y) ∨ i = .readStatus ∨ i = .reserved7 ∨ ∃ h ps, i = .illegal h ps := by
  cases i with
  | beginShade0 _ | beginShade1 _ | beginShade2 _ | beginBadU _ | beginTex4 _ | beginTex8 _ | beginTex15 _
  | beginBadT _ => exact .inl rfl
  | fragment f | fragShade0 f | fragShade1 f | fragShade2 f | pathInvalid3 f | fragTex4 f | fragTex8 f | fragTex15 f
  | pathInvalid7 f => exact .inr (.inl ⟨f, by simp [fragmentRows]⟩)
  | endDraw => simp
  | abortDraw => simp
  | vramWrite x y w rsv => simp
  | vramRead x y => simp
  | readStatus => simp
  | reserved7 => simp
  | illegal h ps => simp

/-! ## One inversion for every instruction -/

/-- What FRAGMENT's rows are among the groups of instructions. -/
theorem fragmentRow_group {f : FragIn} {i : Instr} (hi : i ∈ fragmentRows f) :
    isBegin i = false ∧ isBadBegin i = false ∧ isFragment i = true ∧
      ∀ s : State, violatesProtocol i s = !s.ds.drawOpen := by
  simp only [fragmentRows, List.mem_cons, List.not_mem_nil, or_false] at hi
  rcases hi with rfl | rfl | rfl | rfl | rfl | rfl | rfl | rfl | rfl <;> exact ⟨rfl, rfl, rfl, fun _ => rfl⟩

theorem drawOpen_of_ne_idle {s : State} (h : s.ds ≠ .idle) : s.ds.drawOpen = true := by
  cases hd : s.ds
  · exact absurd hd h
  · rfl
  · rfl

/-- Every next state that an instruction can answer from `s`, with what must hold for it. -/
inductive Result (i : Instr) (s : State) : State → Prop
  | refused : violatesProtocol i s = true → Result i s (refusedBy s)
  | cfgError : violatesProtocol i s = false → isFragment i = true → s.ds ≠ .idle →
      Result i s (answered s 0x00000002#32)
  | opened (mode : BitVec 2) (t : Bool) (d : DrawIn) : isBegin i = true → isBadBegin i = false → mode ≠ 3#2 →
      s.ds = .idle → Result i s
        { s with u := latch mode t d, pend := [], ds := .opened, responses := s.responses ++ [0x00000000#32] }
  | failed (t : Bool) (d : DrawIn) : isBegin i = true → isBadBegin i = true → s.ds = .idle → Result i s
      { s with u := latch 3#2 t d, cfgErr := true, ds := .failed, responses := s.responses ++ [0x00000002#32] }
  | pixel (f : FragIn) (p : Pixel) : i ∈ fragmentRows f → s.ds = .opened → Result i s (finishPixel f p s)
  | endFailed : i = .endDraw → s.ds = .failed → Result i s
      { s with ds := .idle, responses := s.responses ++ [0x00000000#32] }
  | endOpened : i = .endDraw → s.ds = .opened → Result i s
      { s with live := commitAll s.choices s.live s.pend, pend := [], ds := .idle, choices := s.choices + 1,
               responses := s.responses ++ [0x00000000#32] }
  | aborted : i = .abortDraw → s.ds ≠ .idle → Result i s
      { s with live := abortAll s.choices s.live s.pend, pend := [], ds := .idle, choices := s.choices + 1,
               responses := s.responses ++ [0x00000000#32] }
  | wrote (x y w : Word) : i = .vramWrite x y w 0#16 → s.ds = .idle → Result i s
      { s with live := writeWord s.live (clampedAddr x y) w, responses := s.responses ++ [0x00000000#32] }
  | readIdle (x y : Word) : i = .vramRead x y → s.ds = .idle →
      Result i s (answered s (rspWord (readWord s.live (clampedAddr x y)) false .ok))
  | readInDraw (x y w : Word) : i = .vramRead x y → s.ds ≠ .idle →
      w ∈ readWord s.live (clampedAddr x y) :: pendAt s.pend (clampedAddr x y) → Result i s
        { s with choices := s.choices + 1, responses := s.responses ++ [rspWord w false .ok] }
  | status : i = .readStatus → Result i s (answered s (rspWord (statusWord s) false .ok))

/-- Every instruction answers a next state, and it is one of these. -/
theorem exec_result (i : Instr) (s : State) : ∃ t, exec i s = .next t ∧ Result i s t := by
  rcases instr_groups i with h | ⟨f, h⟩ | rfl | rfl | ⟨x, y, w, rsv, rfl⟩ | ⟨x, y, rfl⟩ | rfl | rfl | ⟨h, ps, rfl⟩
  · have hv : violatesProtocol i s = s.ds.drawOpen := by cases i <;> simp [isBegin] at h <;> rfl
    obtain ⟨d, t, ⟨mode, hm, hb, he⟩ | ⟨hb, he⟩⟩ := exec_begin_cases s h
    · rcases beginDraw_cases mode t d s with ⟨hs, h'⟩ | ⟨hs, h'⟩
      · exact ⟨_, he, h' ▸ .opened mode t d h hb hm hs⟩
      · exact ⟨_, he, h' ▸ .refused (by rw [hv, drawOpen_of_ne_idle hs])⟩
    · rcases beginFailed_cases t d s with ⟨hs, h'⟩ | ⟨hs, h'⟩
      · exact ⟨_, he, h' ▸ .failed t d h hb hs⟩
      · exact ⟨_, he, h' ▸ .refused (by rw [hv, drawOpen_of_ne_idle hs])⟩
  · obtain ⟨h1, h2, h3, h4⟩ := fragmentRow_group h
    rcases exec_fragmentRow_cases s h with ⟨hs, h'⟩ | ⟨hs, h'⟩ | ⟨hs, h' | ⟨p, h'⟩⟩
    · exact ⟨_, h', .refused (by rw [h4, hs]; rfl)⟩
    · exact ⟨_, h', .cfgError (by rw [h4, hs]; rfl) h3 (by simp [hs])⟩
    · exact ⟨_, h', .cfgError (by rw [h4, hs]; rfl) h3 (by simp [hs])⟩
    · exact ⟨_, h', .pixel f p h hs⟩
  · rcases execEndDraw_cases s with ⟨hs, h'⟩ | ⟨hs, h'⟩ | ⟨hs, h'⟩
    · exact ⟨_, h', .refused (by simp [violatesProtocol, hs, DrawState.drawOpen])⟩
    · exact ⟨_, h', .endFailed rfl hs⟩
    · exact ⟨_, h', .endOpened rfl hs⟩
  · rcases execAbortDraw_cases s with ⟨hs, h'⟩ | ⟨hs, h'⟩
    · exact ⟨_, h', .refused (by simp [violatesProtocol, hs, DrawState.drawOpen])⟩
    · exact ⟨_, h', .aborted rfl hs⟩
  · rcases execVramWrite_cases x y w rsv s with ⟨hs, h'⟩ | ⟨rfl, hs, h'⟩
    · exact ⟨_, h', .refused (by rcases hs with hs | hs <;> simp [violatesProtocol, hs, drawOpen_of_ne_idle])⟩
    · exact ⟨_, h', .wrote x y w rfl hs⟩
  · rcases execVramRead_cases x y s with ⟨hs, h'⟩ | ⟨hs, w, hw, h'⟩
    · exact ⟨_, h', .readIdle x y rfl hs⟩
    · exact ⟨_, h', .readInDraw x y w rfl hs hw⟩
  · exact ⟨_, rfl, .status rfl⟩
  · exact ⟨_, congrArg Host.Outcome.next (protocolError_eq s), .refused rfl⟩
  · exact ⟨_, congrArg Host.Outcome.next (protocolError_eq s), .refused rfl⟩

/-! ## The indexed paths -/

/-- The CLUT entry of TEX4 in claims' terms (R163, R181, R182). -/
theorem clutEntry_four (s : State) (f : FragIn) :
    clutEntry s 4 f = readWord s.live (clutAddr s.u (extract4 (texelWord s 4 f) (texelSub s.choices 4 f.u))) := by
  have h : ∀ (t : Word) (k : BitVec 2), t.toNat / 2 ^ (k.toNat * 4) % 2 ^ 4 = extract4 t k := by
    intro t k
    rw [extract4, BitVec.toNat_and, BitVec.toNat_ushiftRight, Nat.shiftRight_eq_div_pow,
      show (0x000F#16).toNat = 2 ^ 4 - 1 from rfl, Nat.and_two_pow_sub_one_eq_mod]
  unfold clutEntry
  simp only [show 16 / 4 = 4 from rfl, h]; rfl

/-- The CLUT entry of TEX8 in claims' terms (R164, R181, R182). -/
theorem clutEntry_two (s : State) (f : FragIn) :
    clutEntry s 2 f = readWord s.live (clutAddr s.u (extract8 (texelWord s 2 f) (texelSub s.choices 2 f.u))) := by
  have h : ∀ (t : Word) (k : BitVec 2), t.toNat / 2 ^ (k.toNat * 8) % 2 ^ 8 = extract8 t k := by
    intro t k
    rw [extract8, BitVec.toNat_and, BitVec.toNat_ushiftRight, Nat.shiftRight_eq_div_pow,
      show (0x00FF#16).toNat = 2 ^ 8 - 1 from rfl, Nat.and_two_pow_sub_one_eq_mod]
  unfold clutEntry
  simp only [show 16 / 2 = 8 from rfl, h]; rfl

end Sys2Proof.Machine
end

