-- ==== Sys2Proof/Laws/Float.lean ====
section
/-! SUPPORT. The laws of binary32 arithmetic: the value of a pattern from its magnitude bits, correct rounding to nearest
even, its monotonicity, and multiplication. -/

namespace Sys2Proof.Machine

/-- The value of magnitude bits below 0x7F800000, in units of `2 ^ -149`. -/
def magnitudeVal (m : Nat) : Nat := if m / 2 ^ 23 = 0 then m % 2 ^ 23 else (2 ^ 23 + m % 2 ^ 23) * 2 ^ (m / 2 ^ 23 - 1)

/-- The magnitude bits of a pattern. -/
def magnitude (x : F32) : Nat := (x.extractLsb' 0 31).toNat

theorem f32Exp_eq (x : F32) : f32Exp x = magnitude x / 2 ^ 23 := by
  unfold f32Exp magnitude
  simp only [BitVec.extractLsb'_toNat, Nat.shiftRight_eq_div_pow]
  omega

theorem f32Frac_eq (x : F32) : f32Frac x = magnitude x % 2 ^ 23 := by
  unfold f32Frac magnitude
  simp only [BitVec.extractLsb'_toNat, Nat.shiftRight_eq_div_pow]
  omega

theorem magnitude_lt (x : F32) : magnitude x < 2 ^ 31 := (x.extractLsb' 0 31).isLt

theorem isFinite32_iff (x : F32) : isFinite32 x = true ↔ magnitude x < 0x7F800000 := by
  have h := magnitude_lt x
  have he := f32Exp_eq x
  have : isFinite32 x = true ↔ f32Exp x ≠ 255 := by
    unfold isFinite32 f32Exp
    simp only [bne_iff_ne, ne_eq, ← BitVec.toNat_inj]
    rfl
  rw [this, he]
  omega

/-- The value of a finite pattern. -/
theorem floatVal_finite {x : F32} (h : isFinite32 x = true) :
    floatVal x = .fin (f32Sign x) (magnitudeVal (magnitude x)) := by
  have hm := (isFinite32_iff x).1 h
  unfold floatVal magnitudeVal
  rw [f32Exp_eq, f32Frac_eq, if_neg (by omega)]
  split <;> rfl

theorem real32_eq (x : F32) :
    real32 x = if f32Sign x then -((magnitudeVal (magnitude x) : ℚ) / 2 ^ 149)
      else (magnitudeVal (magnitude x) : ℚ) / 2 ^ 149 := by
  have he : (x.extractLsb' 23 8).toNat = magnitude x / 2 ^ 23 := f32Exp_eq x
  have hf : (x.extractLsb' 0 23).toNat = magnitude x % 2 ^ 23 := f32Frac_eq x
  have hs : x.getLsbD 31 = f32Sign x := rfl
  unfold real32 magnitudeVal
  rw [he, hf, hs]
  generalize magnitude x / 2 ^ 23 = e
  generalize magnitude x % 2 ^ 23 = f
  have H : (if (e : Int) = 0 then (f : ℚ) / 2 ^ 23 * (2 : ℚ) ^ (-126 : Int)
      else (1 + (f : ℚ) / 2 ^ 23) * (2 : ℚ) ^ ((e : Int) - 127)) =
      ((if e = 0 then f else (2 ^ 23 + f) * 2 ^ (e - 1) : Nat) : ℚ) / 2 ^ 149 := by
    rcases e with _ | e
    · simp; ring
    · rw [if_neg (by omega), if_neg (by omega)]
      rw [show ((e + 1 : Nat) : Int) - 127 = (e : Int) + (-126) by push_cast; ring, zpow_add₀ (by norm_num),
        zpow_natCast]
      push_cast
      have : (2 : ℚ) ^ (-126 : Int) = 2 ^ 23 / 2 ^ 149 := by norm_num
      rw [this]; field_simp; norm_num
  simp only [H]

theorem signed_fields (neg : Bool) {m : Nat} (h : m < 2 ^ 31) :
    magnitude (signed neg m) = m ∧ f32Sign (signed neg m) = neg := by
  have ht : (signed neg m).toNat = (BitVec.ofBool neg).toNat * 2 ^ 31 + m := by
    rw [show (signed neg m).toNat = (BitVec.ofBool neg ++ BitVec.ofNat 31 m : BitVec (1 + 31)).toNat from rfl,
      BitVec.toNat_append,
      ← Nat.shiftLeft_add_eq_or_of_lt (BitVec.ofNat 31 m).isLt, Nat.shiftLeft_eq, BitVec.toNat_ofNat, Nat.mod_eq_of_lt h]
  have hb : (BitVec.ofBool neg).toNat < 2 := (BitVec.ofBool neg).isLt
  constructor
  · unfold magnitude; simp only [BitVec.extractLsb'_toNat, ht]; omega
  · unfold f32Sign; rw [BitVec.getLsbD, ht, Nat.testBit_eq_decide_div_mod_eq]
    cases neg <;> simp <;> omega

theorem signed_finite (neg : Bool) {m : Nat} (h : m < 0x7F800000) : isFinite32 (signed neg m) = true := by
  rw [isFinite32_iff, (signed_fields neg (by omega)).1]; exact h

/-- The value of the bits that rounding makes. -/
theorem magnitudeVal_unit {e q : Nat} (hq : q ≤ 2 ^ 24) (h : e = 0 ∨ 2 ^ 23 ≤ q) :
    magnitudeVal (e * 2 ^ 23 + q) = q * 2 ^ e := by
  unfold magnitudeVal
  rcases Nat.lt_or_ge q (2 ^ 23) with h1 | h1
  · have : e = 0 := by omega
    subst this
    rw [if_pos (by omega), Nat.mod_eq_of_lt (by omega)]; omega
  · rw [if_neg (by omega)]
    rcases Nat.lt_or_ge q (2 ^ 24) with h2 | h2
    · rw [show (e * 2 ^ 23 + q) / 2 ^ 23 - 1 = e by omega, show 2 ^ 23 + (e * 2 ^ 23 + q) % 2 ^ 23 = q by omega]
    · have : q = 2 ^ 24 := by omega
      subst this
      rw [show (e * 2 ^ 23 + 2 ^ 24) / 2 ^ 23 - 1 = e + 1 by omega,
        show (e * 2 ^ 23 + 2 ^ 24) % 2 ^ 23 = 0 by omega, pow_succ]; ring

/-- The unit keeps the significand below `2 ^ 24` and, above the subnormals, not below `2 ^ 23`. -/
theorem ulpExp_spec {n d : Nat} (hn : n ≠ 0) (hd : d ≠ 0) :
    n * 2 ^ 149 < 2 ^ 24 * (d * 2 ^ ulpExp n d) ∧ (ulpExp n d = 0 ∨ 2 ^ 23 * (d * 2 ^ ulpExp n d) ≤ n * 2 ^ 149) := by
  have n1 := Nat.log2_self_le hn
  have n2 : n < 2 ^ (n.log2 + 1) := Nat.lt_log2_self
  have d1 := Nat.log2_self_le hd
  have d2 : d < 2 ^ (d.log2 + 1) := Nat.lt_log2_self
  unfold ulpExp
  generalize n.log2 = ln at *
  generalize d.log2 = ld at *
  -- `E` is the exponent before the subtraction of 24
  have key : ∃ E, (if n * 2 ^ 150 < d * 2 ^ (ln + 150 - ld) then ln + 150 - ld - 1 else ln + 150 - ld) = E ∧
      n * 2 ^ 150 < d * 2 ^ (E + 1) ∧ (E = 0 ∨ d * 2 ^ E ≤ n * 2 ^ 150) := by
    refine ⟨_, rfl, ?_⟩
    rcases Nat.lt_or_ge (ln + 150) ld with h | h
    · have : ln + 150 - ld = 0 := by omega
      rw [this]
      have hlt : n * 2 ^ 150 < d := by
        calc n * 2 ^ 150 < 2 ^ (ln + 1) * 2 ^ 150 := by gcongr
          _ = 2 ^ (ln + 151) := by rw [← pow_add]
          _ ≤ 2 ^ ld := Nat.pow_le_pow_right (by omega) (by omega)
          _ ≤ d := d1
      simp only [pow_zero, mul_one, hlt, if_true]
      exact ⟨by simp; omega, .inl trivial⟩
    · obtain ⟨k, hk⟩ : ∃ k, ln + 150 = ld + k := ⟨_, (Nat.add_sub_cancel' h).symm⟩
      have : ln + 150 - ld = k := by omega
      rw [this]
      have up : n * 2 ^ 150 < d * 2 ^ (k + 1) := by
        calc n * 2 ^ 150 < 2 ^ (ln + 1) * 2 ^ 150 := by gcongr
          _ = 2 ^ ld * 2 ^ (k + 1) := by rw [← pow_add, ← pow_add]; congr 1; omega
          _ ≤ d * 2 ^ (k + 1) := by gcongr
      have low : k = 0 ∨ d * 2 ^ (k - 1) ≤ n * 2 ^ 150 := by
        rcases k with _ | k
        · exact .inl rfl
        · right
          calc d * 2 ^ (k + 1 - 1) ≤ 2 ^ (ld + 1) * 2 ^ k := by rw [Nat.add_sub_cancel]; gcongr
            _ = 2 ^ ln * 2 ^ 150 := by rw [← pow_add, ← pow_add]; congr 1; omega
            _ ≤ n * 2 ^ 150 := by gcongr
      split
      · rename_i hlt
        rcases k with _ | k
        · exact ⟨by simpa using hlt.trans (by omega), .inl rfl⟩
        · refine ⟨by simpa using hlt, low.imp (by omega) id⟩
      · exact ⟨up, .inr (by omega)⟩
  obtain ⟨E, hE, h1, h2⟩ := key
  simp only [hE]
  rw [show n * 2 ^ 150 = 2 * (n * 2 ^ 149) by ring] at h1 h2
  rw [pow_succ 2 E] at h1
  clear n1 n2 d1 d2 hE
  obtain ⟨N, hN⟩ : ∃ N, N = n * 2 ^ 149 := ⟨_, rfl⟩
  rw [← hN] at h1 h2 ⊢
  clear hN
  rcases Nat.lt_or_ge E 24 with h | h
  · rw [show E - 24 = 0 by omega]
    have : 2 ^ E ≤ 2 ^ 23 := Nat.pow_le_pow_right (by omega) (by omega)
    have : d * 2 ^ E ≤ d * 2 ^ 23 := by gcongr
    refine ⟨?_, .inl rfl⟩
    have hd0 : 0 < d := Nat.pos_of_ne_zero hd
    rw [← Nat.mul_assoc] at h1
    omega
  · obtain ⟨e, rfl⟩ := Nat.exists_eq_add_of_le h
    rw [Nat.add_sub_cancel_left]
    rw [pow_add] at h1 h2
    refine ⟨?_, .inr ?_⟩
    · have : d * (2 ^ 24 * 2 ^ e * 2) = 2 * (2 ^ 24 * (d * 2 ^ e)) := by ring
      omega
    · have : d * (2 ^ 24 * 2 ^ e) = 2 * (2 ^ 23 * (d * 2 ^ e)) := by ring
      omega

/-- To nearest, ties to even. -/
theorem roundNearestEven_spec (n : Nat) {d : Nat} (hd : 0 < d) :
    2 * (roundNearestEven n d * d) ≤ 2 * n + d ∧ 2 * n ≤ 2 * (roundNearestEven n d * d) + d ∧
    ((2 * (roundNearestEven n d * d) = 2 * n + d ∨ 2 * n = 2 * (roundNearestEven n d * d) + d) →
      roundNearestEven n d % 2 = 0) := by
  have hdiv := Nat.div_add_mod n d
  have hmod := Nat.mod_lt n hd
  have hc : n / d * d = d * (n / d) := Nat.mul_comm _ _
  unfold roundNearestEven
  split
  · refine ⟨by omega, by omega, fun h => by omega⟩
  · split
    · rcases Nat.mod_two_eq_zero_or_one (n / d) with h | h <;> rw [h]
      · exact ⟨by simp; omega, by simp; omega, fun _ => h⟩
      · rw [Nat.add_mul, Nat.one_mul]
        exact ⟨by omega, by omega, fun _ => by omega⟩
    · rw [Nat.add_mul, Nat.one_mul]
      exact ⟨by omega, by omega, fun h => by omega⟩

theorem roundNearestEven_mono {n n' d : Nat} (hd : 0 < d) (h : n ≤ n') :
    roundNearestEven n d ≤ roundNearestEven n' d := by
  obtain ⟨a1, a2, a3⟩ := roundNearestEven_spec n hd
  obtain ⟨b1, b2, b3⟩ := roundNearestEven_spec n' hd
  by_contra hc
  have hlt : roundNearestEven n' d + 1 ≤ roundNearestEven n d := by omega
  have := Nat.mul_le_mul_right d hlt
  rw [Nat.add_mul, Nat.one_mul] at this
  have e : n = n' := by omega
  subst e; omega

/-- The rounded significand stays in `[2 ^ 23, 2 ^ 24]` above the subnormals. -/
theorem significand_bounds {n d : Nat} (hn : n ≠ 0) (hd : d ≠ 0) :
    roundNearestEven (n * 2 ^ 149) (d * 2 ^ ulpExp n d) ≤ 2 ^ 24 ∧
      (ulpExp n d = 0 ∨ 2 ^ 23 ≤ roundNearestEven (n * 2 ^ 149) (d * 2 ^ ulpExp n d)) := by
  obtain ⟨h1, h2⟩ := ulpExp_spec hn hd
  generalize n * 2 ^ 149 = N at *
  have hD : 0 < d * 2 ^ ulpExp n d := Nat.mul_pos (Nat.pos_of_ne_zero hd) (by positivity)
  generalize d * 2 ^ ulpExp n d = D at *
  obtain ⟨a1, a2, -⟩ := roundNearestEven_spec N hD
  refine ⟨?_, h2.imp id fun h2 => ?_⟩
  · by_contra hc
    have := Nat.mul_le_mul_right D (show 2 ^ 24 + 1 ≤ roundNearestEven N D by omega)
    rw [Nat.add_mul] at this; omega
  · by_contra hc
    have := Nat.mul_le_mul_right D (show roundNearestEven N D + 1 ≤ 2 ^ 23 by omega)
    rw [Nat.add_mul] at this; omega

/-- Significands of different binades are ordered as their bits are. -/
theorem binade_le {e e' q q' : Nat} (he : e < e') (hq : q ≤ 2 ^ 24) (hq' : 2 ^ 23 ≤ q') :
    e * 2 ^ 23 + q ≤ e' * 2 ^ 23 + q' := by omega

/-- Rounding is monotone. -/
theorem roundMagnitude_mono {n n' d : Nat} (hd : d ≠ 0) (h : n ≤ n') :
    roundMagnitude n d ≤ roundMagnitude n' d := by
  unfold roundMagnitude
  by_cases hn : n = 0
  · rw [if_pos hn]; exact Nat.zero_le _
  · have hn' : n' ≠ 0 := by omega
    rw [if_neg hn, if_neg hn']
    obtain ⟨a1, a2⟩ := ulpExp_spec hn hd
    obtain ⟨b1, b2⟩ := ulpExp_spec hn' hd
    obtain ⟨c1, c2⟩ := significand_bounds hn hd
    obtain ⟨e1, e2⟩ := significand_bounds hn' hd
    have hD : ∀ e, 0 < d * 2 ^ e := fun e => Nat.mul_pos (Nat.pos_of_ne_zero hd) (by positivity)
    have hN : n * 2 ^ 149 ≤ n' * 2 ^ 149 := Nat.mul_le_mul_right _ h
    have he : ulpExp n d ≤ ulpExp n' d := by
      by_contra hc
      have h1 : ulpExp n d ≠ 0 := by omega
      have h2 := (a2.resolve_left h1)
      have : 2 ^ (ulpExp n' d + 1) ≤ 2 ^ ulpExp n d := Nat.pow_le_pow_right (by omega) (by omega)
      rw [pow_succ] at this
      have := Nat.mul_le_mul_left d this
      have e : d * (2 ^ ulpExp n' d * 2) = 2 * (d * 2 ^ ulpExp n' d) := by ring
      omega
    refine min_le_min_right _ ?_
    rcases Nat.eq_or_lt_of_le he with he | he
    · rw [he]
      exact Nat.add_le_add_left (roundNearestEven_mono (hD _) hN) _
    · have := e2.resolve_left (by omega)
      exact binade_le he c1 this

/-- Every value below the unit's binade lies below it, and every other is a multiple of the unit. -/
theorem magnitudeVal_grid (m e : Nat) :
    magnitudeVal m < 2 ^ 23 * 2 ^ e ∧ e ≠ 0 ∨ ∃ k, magnitudeVal m = k * 2 ^ e := by
  unfold magnitudeVal
  split
  · rcases Nat.eq_zero_or_pos e with rfl | he
    · exact .inr ⟨m % 2 ^ 23, by simp⟩
    · refine .inl ⟨?_, by omega⟩
      calc m % 2 ^ 23 < 2 ^ 23 * 1 := by omega
        _ ≤ 2 ^ 23 * 2 ^ e := by gcongr; exact Nat.one_le_two_pow
  · generalize m / 2 ^ 23 = E at *
    rcases Nat.lt_or_ge (E - 1) e with h | h
    · refine .inl ⟨?_, by omega⟩
      calc (2 ^ 23 + m % 2 ^ 23) * 2 ^ (E - 1) < 2 ^ 24 * 2 ^ (E - 1) := by gcongr; omega
        _ = 2 ^ 23 * 2 ^ (E - 1 + 1) := by ring
        _ ≤ 2 ^ 23 * 2 ^ e := by gcongr <;> omega
    · obtain ⟨j, hj⟩ := Nat.exists_eq_add_of_le h
      exact .inr ⟨(2 ^ 23 + m % 2 ^ 23) * 2 ^ j, by rw [hj, pow_add]; ring⟩

theorem roundMagnitude_le (n d : Nat) : roundMagnitude n d ≤ 0x7F800000 := by
  unfold roundMagnitude
  split
  · omega
  · exact min_le_right _ _

/-- The value of a result that does not overflow is a whole number of units, and that number is the rounded quotient. -/
theorem roundMagnitude_val {n d : Nat} (hn : n ≠ 0) (hd : d ≠ 0) (hf : roundMagnitude n d < 0x7F800000) :
    magnitudeVal (roundMagnitude n d) = roundNearestEven (n * 2 ^ 149) (d * 2 ^ ulpExp n d) * 2 ^ ulpExp n d ∧
    roundMagnitude n d % 2 = roundNearestEven (n * 2 ^ 149) (d * 2 ^ ulpExp n d) % 2 := by
  obtain ⟨h1, h2⟩ := significand_bounds hn hd
  have e : roundMagnitude n d = ulpExp n d * 2 ^ 23 + roundNearestEven (n * 2 ^ 149) (d * 2 ^ ulpExp n d) := by
    unfold roundMagnitude at hf ⊢
    rw [if_neg hn] at hf ⊢
    simp only at hf ⊢
    omega
  rw [e]
  exact ⟨magnitudeVal_unit h1 h2, by omega⟩

/-- A result that does not overflow is a nearest value to `n / d`, and has an even significand where another is as
near. -/
theorem roundMagnitude_nearest {n d : Nat} (hd : d ≠ 0) (hf : roundMagnitude n d < 0x7F800000) (m : Nat) :
    |(magnitudeVal (roundMagnitude n d) : ℚ) - n * 2 ^ 149 / d| ≤ |(magnitudeVal m : ℚ) - n * 2 ^ 149 / d| ∧
    (|(magnitudeVal (roundMagnitude n d) : ℚ) - n * 2 ^ 149 / d| = |(magnitudeVal m : ℚ) - n * 2 ^ 149 / d| →
      magnitudeVal m ≠ magnitudeVal (roundMagnitude n d) → roundMagnitude n d % 2 = 0) := by
  by_cases hn : n = 0
  · subst hn
    have : magnitudeVal (roundMagnitude 0 d) = 0 := by simp [roundMagnitude, magnitudeVal]
    rw [this]
    refine ⟨by simp, fun h h' => ?_⟩
    simp at h; exact absurd h.symm (by exact_mod_cast h')
  · obtain ⟨hv, he⟩ := roundMagnitude_val hn hd hf
    obtain ⟨u1, u2⟩ := ulpExp_spec hn hd
    have hd0 : (0 : ℚ) < d := by exact_mod_cast Nat.pos_of_ne_zero hd
    have hU : (0 : ℚ) < 2 ^ ulpExp n d := by positivity
    have hD : 0 < d * 2 ^ ulpExp n d := Nat.mul_pos (Nat.pos_of_ne_zero hd) (by positivity)
    obtain ⟨r1, r2, r3⟩ := roundNearestEven_spec (n * 2 ^ 149) hD
    rw [hv, he]
    generalize roundNearestEven (n * 2 ^ 149) (d * 2 ^ ulpExp n d) = q at *
    have hg := magnitudeVal_grid m (ulpExp n d)
    generalize magnitudeVal m = v at *
    generalize ulpExp n d = e at *
    -- everything in units of `2 ^ e`
    set x : ℚ := n * 2 ^ 149 / d with hx
    have hxd : x * d = n * 2 ^ 149 := by rw [hx]; field_simp
    have q1 : 2 * ((q : ℚ) * 2 ^ e) ≤ 2 * x + 2 ^ e := by
      have : (2 * (q * (d * 2 ^ e)) : ℚ) ≤ 2 * (n * 2 ^ 149) + d * 2 ^ e := by exact_mod_cast r1
      rw [← hxd] at this
      nlinarith
    have q2 : 2 * x ≤ 2 * ((q : ℚ) * 2 ^ e) + 2 ^ e := by
      have : (2 * (n * 2 ^ 149) : ℚ) ≤ 2 * (q * (d * 2 ^ e)) + d * 2 ^ e := by exact_mod_cast r2
      rw [← hxd] at this
      nlinarith
    have q3 : (2 * ((q : ℚ) * 2 ^ e) = 2 * x + 2 ^ e ∨ 2 * x = 2 * ((q : ℚ) * 2 ^ e) + 2 ^ e) → q % 2 = 0 := by
      intro h
      refine r3 (h.imp (fun h => ?_) fun h => ?_)
      · have : (2 * (q * (d * 2 ^ e)) : ℚ) = 2 * (n * 2 ^ 149) + d * 2 ^ e := by
          rw [← hxd]; linear_combination (d : ℚ) * h
        exact_mod_cast this
      · have : (2 * (n * 2 ^ 149) : ℚ) = 2 * (q * (d * 2 ^ e)) + d * 2 ^ e := by
          rw [← hxd]; linear_combination (d : ℚ) * h
        exact_mod_cast this
    have habs : |(q : ℚ) * 2 ^ e - x| ≤ 2 ^ e / 2 := by rw [abs_le]; constructor <;> linarith
    push_cast
    rcases hg with ⟨hlt, h0⟩ | ⟨k, hk⟩
    · have hlow := u2.resolve_left h0
      have l1 : (2 ^ 23 * 2 ^ e : ℚ) ≤ x := by
        have : (2 ^ 23 * (d * 2 ^ e) : ℚ) ≤ n * 2 ^ 149 := by exact_mod_cast hlow
        rw [← hxd] at this
        nlinarith
      have l2 : (v : ℚ) + 1 ≤ 2 ^ 23 * 2 ^ e := by exact_mod_cast hlt
      -- the grid point `2 ^ 23` is nearer than `v`, and `q` is at least as near as that
      have hq23 : |(q : ℚ) * 2 ^ e - x| ≤ x - 2 ^ 23 * 2 ^ e := by
        rcases Nat.lt_or_ge q (2 ^ 23) with h | h
        · have : ((q : ℚ) + 1) * 2 ^ e ≤ 2 ^ 23 * 2 ^ e := by
            have : (q : ℚ) + 1 ≤ 2 ^ 23 := by exact_mod_cast h
            nlinarith
          exfalso; linarith
        · rcases Nat.eq_or_lt_of_le h with h | h
          · rw [← h]; push_cast; rw [abs_of_nonpos (by linarith)]; linarith
          · have : (2 ^ 23 + 1 : ℚ) ≤ q := by exact_mod_cast h
            have : (2 ^ 23 + 1 : ℚ) * 2 ^ e ≤ q * 2 ^ e := by gcongr
            linarith
      have hvx : |(v : ℚ) - x| = x - v := by rw [abs_of_nonpos (by linarith)]; ring
      rw [hvx]
      exact ⟨by linarith, fun h => by linarith⟩
    · rw [hk]; push_cast
      rcases Nat.lt_trichotomy k q with h | h | h
      · have : ((k : ℚ) + 1) * 2 ^ e ≤ q * 2 ^ e := by
          have : (k : ℚ) + 1 ≤ q := by exact_mod_cast h
          gcongr
        have hkx : |(k : ℚ) * 2 ^ e - x| = x - k * 2 ^ e := by rw [abs_of_nonpos (by linarith)]; ring
        rw [hkx]
        refine ⟨by linarith, fun h _ => q3 ?_⟩
        rw [h] at habs
        exact .inl (by linarith)
      · subst h; exact ⟨le_refl _, fun _ h => absurd rfl h⟩
      · have : ((q : ℚ) + 1) * 2 ^ e ≤ k * 2 ^ e := by
          have : (q : ℚ) + 1 ≤ k := by exact_mod_cast h
          gcongr
        have hkx : |(k : ℚ) * 2 ^ e - x| = k * 2 ^ e - x := by rw [abs_of_nonneg (by linarith)]
        rw [hkx]
        refine ⟨by linarith, fun h _ => q3 ?_⟩
        rw [h] at habs
        exact .inr (by linarith)

/-- A NaN is a pattern with magnitude bits above infinity's. -/
theorem isNaN_iff (x : F32) : isNaN x = true ↔ 0x7F800000 < magnitude x := by
  have h := magnitude_lt x
  unfold isNaN floatVal
  rw [f32Exp_eq, f32Frac_eq]
  split <;> split_ifs at * <;> simp_all <;> omega

/-- The whole of a multiplication of finite values (R10). -/
theorem fmul32_finite {a b : F32} (ha : isFinite32 a = true) (hb : isFinite32 b = true) :
    fmul32 a b = signed (f32Sign a ^^ f32Sign b)
      (roundMagnitude (magnitudeVal (magnitude a) * magnitudeVal (magnitude b)) (2 ^ 149 * 2 ^ 149)) := by
  unfold fmul32
  rw [floatVal_finite ha, floatVal_finite hb]
  rfl

/-- Finite factors never give a NaN (R10). -/
theorem fmul32_finite_not_nan {a b : F32} (ha : isFinite32 a = true) (hb : isFinite32 b = true) :
    isNaN (fmul32 a b) = false := by
  rw [Bool.eq_false_iff, Ne, isNaN_iff, fmul32_finite ha hb]
  have h := roundMagnitude_le (magnitudeVal (magnitude a) * magnitudeVal (magnitude b)) (2 ^ 149 * 2 ^ 149)
  rw [(signed_fields _ (by omega)).1]
  omega

end Sys2Proof.Machine
end

