-- ==== Sys2Proof/Laws/PerInstr.lean ====
section
/-! SUPPORT. Statements made once for each instruction. `EncodeLength`: a well-formed instruction's packet is as long as
its header's `op` says (R82, R96). -/

namespace Sys2Proof.Laws.EncodeLength

/-- The packet of `i` starts with a header and has the length of that header's `op` (R96). -/
def Statement (i : Instr) : Prop :=
  i.wellFormed = true → ∃ h ps, encode i = h :: ps ∧ ps.length + 1 = packetLen h

theorem beginShade0 (d : DrawIn) : Statement (.beginShade0 d) := fun _ => ⟨_, _, rfl, rfl⟩
theorem beginShade1 (d : DrawIn) : Statement (.beginShade1 d) := fun _ => ⟨_, _, rfl, rfl⟩
theorem beginShade2 (d : DrawIn) : Statement (.beginShade2 d) := fun _ => ⟨_, _, rfl, rfl⟩
theorem beginBadU (d : DrawIn) : Statement (.beginBadU d) := fun _ => ⟨_, _, rfl, rfl⟩
theorem beginTex4 (d : DrawIn) : Statement (.beginTex4 d) := fun _ => ⟨_, _, rfl, rfl⟩
theorem beginTex8 (d : DrawIn) : Statement (.beginTex8 d) := fun _ => ⟨_, _, rfl, rfl⟩
theorem beginTex15 (d : DrawIn) : Statement (.beginTex15 d) := fun _ => ⟨_, _, rfl, rfl⟩
theorem beginBadT (d : DrawIn) : Statement (.beginBadT d) := fun _ => ⟨_, _, rfl, rfl⟩
theorem fragment (f : FragIn) : Statement (.fragment f) := fun _ => ⟨_, _, rfl, rfl⟩
theorem fragShade0 (f : FragIn) : Statement (.fragShade0 f) := fun _ => ⟨_, _, rfl, rfl⟩
theorem fragShade1 (f : FragIn) : Statement (.fragShade1 f) := fun _ => ⟨_, _, rfl, rfl⟩
theorem fragShade2 (f : FragIn) : Statement (.fragShade2 f) := fun _ => ⟨_, _, rfl, rfl⟩
theorem pathInvalid3 (f : FragIn) : Statement (.pathInvalid3 f) := fun _ => ⟨_, _, rfl, rfl⟩
theorem fragTex4 (f : FragIn) : Statement (.fragTex4 f) := fun _ => ⟨_, _, rfl, rfl⟩
theorem fragTex8 (f : FragIn) : Statement (.fragTex8 f) := fun _ => ⟨_, _, rfl, rfl⟩
theorem fragTex15 (f : FragIn) : Statement (.fragTex15 f) := fun _ => ⟨_, _, rfl, rfl⟩
theorem pathInvalid7 (f : FragIn) : Statement (.pathInvalid7 f) := fun _ => ⟨_, _, rfl, rfl⟩
theorem endDraw : Statement .endDraw := fun _ => ⟨_, _, rfl, rfl⟩
theorem abortDraw : Statement .abortDraw := fun _ => ⟨_, _, rfl, rfl⟩
theorem vramWrite (x y w rsv : Word) : Statement (.vramWrite x y w rsv) := fun _ => ⟨_, _, rfl, rfl⟩
theorem vramRead (x y : Word) : Statement (.vramRead x y) := fun _ => ⟨_, _, rfl, rfl⟩
theorem readStatus : Statement .readStatus := fun _ => ⟨_, _, rfl, rfl⟩
theorem reserved7 : Statement .reserved7 := fun _ => ⟨_, _, rfl, rfl⟩

theorem illegal (header : Cmd) (payload : List Cmd) : Statement (.illegal header payload) := by
  intro h
  simp only [Instr.wellFormed, Bool.and_eq_true, beq_iff_eq] at h
  exact ⟨header, payload, rfl, h.2⟩

end Sys2Proof.Laws.EncodeLength
end

