-- ==== Sys2Proof/Tests/Slice0.lean ====
section
/-! SUPPORT. Tests. The expected values are the spec's: 30_encoding.md (R92 to R99) for words, 95_test_vectors.md (vectors
L2, programs P1 to P4) for results, or hand work from the rule a comment names. `test_witness_<Name>` shows a state and
operands that meet every hypothesis of `Obligations.<Name>`. -/

namespace Sys2Proof.Tests

open Sys2Proof.Machine

/-! ## Small states -/

/-- The next state of an outcome. -/
def nextOf : Host.Outcome State Fault Refusal → Option State
  | .next t => some t
  | .fault _ | .refused _ => none

theorem eq_next_of_nextOf {o : Host.Outcome State Fault Refusal} {t : State} (h : nextOf o = some t) : o = .next t := by
  cases o with
  | next s => cases h; rfl
  | fault r => cases h
  | refused r => cases h

/-- Words stored at coordinates, over memory that nothing has written. -/
def stored (ws : List (BitVec 10 × BitVec 9 × Word)) : Memory :=
  ws.foldl (fun m e => writeWord m (wa e.1 e.2.1) e.2.2) []

/-- VRAM of P1, with a TEX4 word at (0, 0) and its entry at (7, 480). -/
def vramP1 : Memory :=
  stored [(0, 0, 0xA3D7), (5, 0, 0x1F00), (0, 480, 0x0000), (7, 480, 0x8421), (31, 480, 0x7FFF), (100, 100, 0x1234),
    (101, 100, 0x1234)]

/-- A draw open on P1's VRAM, CLUT base (0, 480), with a path and a modulation. -/
def drawP1 (mode : BitVec 2) (textured : Bool) (factor : F32) : State :=
  { State.reset with
    live := vramP1
    ds := .opened
    u := ⟨mode, textured, 0, 0, 0, 480, factor, factor, factor⟩ }

/-- An open TEX8 draw with one word pending at (101, 100). -/
def pendingP1 : State := { drawP1 1 true 0x3F000000 with pend := [(102501, [0x3DEF])] }

/-- A FAILED draw (R223). -/
def failedDraw : State := { State.reset with ds := .failed, cfgErr := true, u := { Uniform.reset with mode := 3 } }

/-- P1's FRAGMENTs: sub-index 0 of (5, 0), and sub-index 1. -/
def fragP1 (sub : Bool) : FragIn :=
  ⟨if sub then 0x3BB80000 else 0x3BA80000, 0x3A800000, 0, 0, 0, if sub then 101 else 100, 100⟩

/-- A FRAGMENT at uv (0, 0) with a colour. -/
def fragAt0 : FragIn := ⟨0, 0, 0x3F000000, 0x3E800000, 0x40000000, 11, 10⟩

def drawArgs : DrawIn := ⟨1, 2, 3, 4, 0x3F000000, 0x3E800000, 0x40000000⟩

theorem test_inv_reset : State.reset.Inv := by constructor <;> decide
theorem test_inv_draw : pendingP1.Inv := by constructor <;> decide
theorem test_inv_failed : failedDraw.Inv := by constructor <;> decide

/-! ## WellFormed refuses each ill-formed term -/

theorem test_wellFormed_header : (Instr.illegal 0x00000002 []).wellFormed = false := by decide
theorem test_wellFormed_bad_draw : (Instr.illegal 0x00000038 [0, 0, 0, 0, 0]).wellFormed = false := by decide
theorem test_wellFormed_short : (Instr.illegal 0x80000001 [0, 0, 0, 0, 0]).wellFormed = false := by decide
theorem test_wellFormed_long : (Instr.illegal 0x0000000A [0]).wellFormed = false := by decide

/-! ## Decoding: words written out from R81 to R99 -/

/-- BEGIN_DRAW's payload for `drawArgs` (R84): tp, clut, then the modulation. -/
def drawWords : List Cmd := [0x00020001, 0x00040003, 0x3F000000, 0x3E800000, 0x40000000]

/-- A FRAGMENT packet for `fragAt0` (R85). -/
def fragWords : List Cmd := [0x00000001, 0, 0, 0x3F000000, 0x3E800000, 0x40000000, 0x000A000B]

theorem test_decode_beginShade0 : decode (0x00000000 :: drawWords) = .ok (.beginShade0 drawArgs, []) := by decide
theorem test_decode_beginShade1 : decode (0x00000008 :: drawWords) = .ok (.beginShade1 drawArgs, []) := by decide
theorem test_decode_beginShade2 : decode (0x00000010 :: drawWords) = .ok (.beginShade2 drawArgs, []) := by decide
theorem test_decode_beginBadU : decode (0x00000018 :: drawWords) = .ok (.beginBadU drawArgs, []) := by decide
theorem test_decode_beginTex4 : decode (0x00000020 :: drawWords) = .ok (.beginTex4 drawArgs, []) := by decide
theorem test_decode_beginTex8 : decode (0x00000028 :: drawWords) = .ok (.beginTex8 drawArgs, []) := by decide
theorem test_decode_beginTex15 : decode (0x00000030 :: drawWords) = .ok (.beginTex15 drawArgs, []) := by decide
theorem test_decode_beginBadT : decode (0x00000038 :: drawWords) = .ok (.beginBadT drawArgs, []) := by decide
theorem test_decode_fragment : decode fragWords = .ok (.fragment fragAt0, []) := by decide
theorem test_decode_endDraw : decode [0x00000002, 0x00000003] = .ok (.endDraw, [0x00000003]) := by decide
theorem test_decode_abortDraw : decode [0x00000003] = .ok (.abortDraw, []) := by decide
theorem test_decode_vramWrite :
    decode [0x00000004, 0x01E0001F, 0x00007FFF] = .ok (.vramWrite 31 480 0x7FFF 0, []) := by decide
theorem test_decode_vramRead : decode [0x00000005, 0x00640065] = .ok (.vramRead 101 100, []) := by decide
theorem test_decode_readStatus : decode [0x00000006] = .ok (.readStatus, []) := by decide
theorem test_decode_reserved7 : decode [0x00000007] = .ok (.reserved7, []) := by decide
theorem test_decode_illegal : decode [0x0000000A, 6] = .ok (.illegal 0x0000000A [], [6]) := by decide
/-- A reserved bit leaves the length alone (R96): FRAGMENT with bit 31 set is 7 words long. -/
theorem test_decode_illegal_length :
    decode [0x80000001, 1, 2, 3, 4, 5, 6, 0x00000002] = .ok (.illegal 0x80000001 [1, 2, 3, 4, 5, 6], [2]) := by decide
theorem test_decode_truncated : decode [0x00000004, 0x01E0001F] = .error (.truncated 1) := by decide

theorem test_decode_fragShade0 : decodeUnder (some 0b000) fragWords = .ok (.fragShade0 fragAt0, []) := by decide
theorem test_decode_fragShade1 : decodeUnder (some 0b001) fragWords = .ok (.fragShade1 fragAt0, []) := by decide
theorem test_decode_fragShade2 : decodeUnder (some 0b010) fragWords = .ok (.fragShade2 fragAt0, []) := by decide
theorem test_decode_pathInvalid3 : decodeUnder (some 0b011) fragWords = .ok (.pathInvalid3 fragAt0, []) := by decide
theorem test_decode_fragTex4 : decodeUnder (some 0b100) fragWords = .ok (.fragTex4 fragAt0, []) := by decide
theorem test_decode_fragTex8 : decodeUnder (some 0b101) fragWords = .ok (.fragTex8 fragAt0, []) := by decide
theorem test_decode_fragTex15 : decodeUnder (some 0b110) fragWords = .ok (.fragTex15 fragAt0, []) := by decide
theorem test_decode_pathInvalid7 : decodeUnder (some 0b111) fragWords = .ok (.pathInvalid7 fragAt0, []) := by decide

/-- The words of the opcode table's rows: a command row's header, and a PATH row's `ctrl`. -/
theorem test_table_words :
    decodeTableWord 32 0x00000028 = some (.beginTex8 ⟨0, 0, 0, 0, 0, 0, 0⟩) ∧
    decodeTableWord 32 0x00000001 = some (.fragment ⟨0, 0, 0, 0, 0, 0, 0⟩) ∧
    decodeTableWord 32 0x00000040 = some (.illegal 0x00000040 [0, 0, 0, 0, 0]) ∧
    decodeTableWord 8 0b110 = some (.fragTex15 ⟨0, 0, 0, 0, 0, 0, 0⟩) := by decide

theorem test_fetch_command : step (State.reset.withFetchWord 32 0x00000006) = .next (answered State.reset 0) :=
  eq_next_of_nextOf (by decide)

/-- A PATH row placed after reset runs as FRAGMENT in a draw of its path (R224, R225). -/
theorem test_fetch_path :
    (nextOf (step (State.reset.withFetchWord 8 0b000))).map (·.responses) = some [0x00000000] ∧
    (nextOf (step (State.reset.withFetchWord 8 0b111))).map (·.responses) = some [0x00000002] := by decide

/-! ## Sub-unit vectors (95_test_vectors.md, parts 2.1 to 2.7) -/

/-- L2-D5 and L2-E9, E11, E12, E17, E19. -/
theorem test_codec :
    decodeRgb 0xA3D7 = ⟨0x3F3DEF7C, 0x3F77BDEF, 0x3E842108⟩ ∧ maskBit 0xA3D7 = true ∧
    [0x3F000000, 0x3F000106, 0x3F7801FB, 0x7F800000, 0xFF800000].map quantize = [15, 16, 30, 31, 0] := by
  decide +kernel

/-- L2-A4, A5 and A6: (col, sub, row). -/
theorem test_address :
    (texelCol 0 4 0x3BB80000, texelSub 0 4 0x3BB80000, texelRow 0 0x3A800000) = (5, 3, 0) ∧
    (texelCol 0 2 0x3F800000, texelSub 0 2 0x3F800000, texelRow 0 0x3F800000) = (1023, 1, 511) ∧
    (texelCol 0 1 0xBDCCCCCD, texelSub 0 1 0xBDCCCCCD, texelRow 0 0xBDCCCCCD) = (0, 0, 0) := by decide +kernel

/-- L2-M8, M12, M17: the colour, the modulation and the output word. -/
theorem test_modulation :
    encodeColour 0 (modulate (decodeRgb 0x7FFF) ⟨0xBF800000, 0x3F000000, 0x40000000⟩) false = 0x7DE0 ∧
    encodeColour 0 (modulate (decodeRgb 0x5294) ⟨0x3DCCCCCD, 0x3DCCCCCD, 0x3DCCCCCD⟩) false = 0x0842 ∧
    encodeColour 0 (modulate (decodeRgb 0x7FFF) ⟨0x3D00346E, 0x3D00346E, 0x3D00346E⟩) false = 0x0421 := by
  decide +kernel

/-! ## One step of each instruction (95_test_vectors.md, part 2.8 and the programs) -/

/-- STATUS vectors: TEX8 draw open, and a draw FAILED by header 0x38 or 0x18. -/
theorem test_begin_status :
    (nextOf (exec (.beginTex8 drawArgs) State.reset)).map statusWord = some 0x0051 ∧
    (nextOf (exec (.beginBadT drawArgs) State.reset)).map statusWord = some 0x0077 ∧
    (nextOf (exec (.beginBadU drawArgs) State.reset)).map statusWord = some 0x0037 := by decide

theorem test_begin_latches :
    (nextOf (exec (.beginTex4 drawArgs) State.reset)).map (·.u) =
      some ⟨0, true, 1, 2, 3, 4, 0x3F000000, 0x3E800000, 0x40000000⟩ := by decide

theorem test_begin_shade_latches :
    (nextOf (exec (.beginShade1 drawArgs) State.reset)).map (fun t => (t.u.textured, t.u.mode, t.ds)) =
      some (false, 1, .opened) := by decide

/-- P1: the discarded pixel, and the written one. -/
theorem test_frag_tex8 :
    (nextOf (exec (.fragTex8 (fragP1 false)) (drawP1 1 true 0x3F000000))).map (fun t => (t.responses, t.pend)) =
      some ([0x00000001], []) ∧
    (nextOf (exec (.fragTex8 (fragP1 true)) (drawP1 1 true 0x3F000000))).map (fun t => (t.responses, t.pend)) =
      some ([0x3DEF0000], [(102501, [0x3DEF])]) := by decide +kernel

/-- T = 0xA3D7 at sub-index 0 is index 7 (L2-X1); its entry 0x8421 under 1.0 comes back with its mask bit. -/
theorem test_frag_tex4 :
    (nextOf (exec (.fragTex4 fragAt0) (drawP1 0 true 0x3F800000))).map (·.responses) = some [0x84210008] := by
  decide +kernel

/-- L1-5: Direct15 under 1.0 gives the texel word. -/
theorem test_frag_tex15 :
    (nextOf (exec (.fragment fragAt0) (drawP1 2 true 0x3F800000))).map (·.responses) = some [0xA3D70008] := by
  decide +kernel

/-- L2-S2, with any modulation in the uniform (L2-S4). -/
theorem test_frag_shade :
    (nextOf (exec (.fragment fragAt0) (drawP1 1 false 0x3F000000))).map (·.responses) = some [0x7CEF0000] := by
  decide +kernel

/-- The shared-destination vector of R228: both words are pending. -/
theorem test_pending_set : pendWrite (pendWrite [] 5 0x03E0) 5 0x001F = [(5, [0x001F, 0x03E0])] := by decide

theorem test_fragment_failed :
    (nextOf (exec (.fragment fragAt0) failedDraw)).map (fun t => (t.responses, t.pend)) = some ([2], []) := by decide

/-- P1's END_DRAW: the pending word is committed, whatever `commit_pick` is. -/
theorem test_end_draw : readWord (commitAll 0 vramP1 [(102501, [0x3DEF])]) (wa 101 100) = 0x3DEF := by
  simp [commitAll, commitEntry, readWord_writeWord_same, wa]

theorem test_abort_idle : (nextOf (exec .abortDraw State.reset)).map (·.responses) = some [3] := by decide

theorem test_vram_write :
    (nextOf (exec (.vramWrite 2000 5000 0x1F00 0) State.reset)).map (·.live) =
      some [(1048574, 0x00), (1048575, 0x1F)] := by decide

/-- P4's VRAM_WRITE with `P2` = 0x00010001. -/
theorem test_vram_write_reserved :
    nextOf (exec (.vramWrite 7 7 1 1) State.reset) = some (refusedBy State.reset) := by decide

theorem test_vram_read :
    (nextOf (exec (.vramRead 101 100) { drawP1 0 false 0 with ds := .idle })).map (·.responses) =
      some [0x12340000] := by decide

/-- Idle with both flags set and the last uniform TEX15. -/
theorem test_read_status :
    (nextOf (exec .readStatus { drawP1 2 true 0 with ds := .idle, cfgErr := true, protoErr := true })).map
      (·.responses) = some [0x006C0000] := by decide

theorem test_reserved7 : nextOf (exec .reserved7 failedDraw) = some (refusedBy failedDraw) := by decide

/-! ## Witnesses: each hypothesis of each statement is met -/

theorem test_witness_DecodeReadsEncodedInstruction :
    (Instr.illegal 0x00000040 [1, 2, 3, 4, 5]).wellFormed = true ∧ (Instr.fragTex4 fragAt0).wellFormed = true := by
  decide

theorem test_witness_EncodeInvertsDecode : decode [0x00000006, 0x00000002] = .ok (.readStatus, [0x00000002]) := by decide

/-- The shortest whole packet and the longest cut one. -/
theorem test_witness_PacketLengthFollowsFromOp :
    packetLen 0x00000001 ≤ [1, 0, 0, 0, 0, 0, (0 : Cmd)].length ∧
    [1, 0, 0, 0, 0, (0 : Cmd)].length < packetLen 0x00000001 := by decide

theorem test_witness_IllegalRowTakesReservedBits :
    (0x00000038#32 ∈ exactHeaders ∧ [0, 0, 0, 0, (0 : Cmd)].length + 1 = packetLen 0x00000038) ∧
    (0x00000040#32 ∉ exactHeaders ∧ [0, 0, 0, 0, (0 : Cmd)].length + 1 = packetLen 0x00000040) := by decide

theorem test_witness_StepRunsDecodedPacket :
    decode { State.reset with stream := [0x00000007, 0x00000002] }.stream = .ok (.reserved7, [0x00000002]) := by decide

theorem test_witness_StepIdlesWithoutPacket :
    State.reset.stream = [] ∧
    ∃ h ps, ({ State.reset with stream := [5] } : State).stream = h :: ps ∧ ps.length + 1 < packetLen h :=
  ⟨rfl, 5, [], rfl, by decide⟩

theorem test_witness_OutcomePriority :
    State.reset.Inv ∧ pendingP1.Inv ∧ failedDraw.Inv ∧ (Instr.fragment fragAt0).isPathRow = false :=
  ⟨test_inv_reset, test_inv_draw, test_inv_failed, rfl⟩

theorem test_witness_ProtocolErrorChangesOnlyItsFlag :
    violatesProtocol .endDraw State.reset = true ∧ violatesProtocol .endDraw failedDraw = false ∧
    decode { State.reset with stream := [0x00000002] }.stream = .ok (.endDraw, []) := by decide

/-- The lowest reserved bit of each kind of header. -/
theorem test_witness_ReservedBitIsProtocolError :
    (([0x00000040, 0, 0, 0, 0, 0, 6] : List Cmd) = 0x00000040 :: [0, 0, 0, 0, 0] ++ [6] ∧
      [0, 0, 0, 0, (0 : Cmd)].length + 1 = packetLen 0x00000040 ∧ reservedBitSet 0x00000040 = true) ∧
    (([] : List Cmd).length + 1 = packetLen 0x0000000A ∧ reservedBitSet 0x0000000A = true) ∧
    (0x00010001#32).extractLsb' 16 16 ≠ 0#16 := by decide

theorem test_witness_OpcodeSevenIsProtocolError :
    (0x00000007#32).extractLsb' 0 3 = 7#3 ∧ (0xFFFFFFFF#32).extractLsb' 0 3 = 7#3 := by decide

theorem test_witness_BeginDrawOpensDraw : (2#2 ≠ 3#2 ∧ 0#2 ≠ 3#2) ∧ State.reset.ds = .idle := by decide

theorem test_witness_BeginDrawWithBadTagFailsDraw : State.reset.ds = .idle ∧ State.reset.protoErr = false := by decide

theorem test_witness_BeginDrawInsideDrawRefused : pendingP1.ds ≠ .idle ∧ failedDraw.ds ≠ .idle := by decide

theorem test_witness_UniformWrittenOnlyByAcceptedBegin :
    exec .reserved7 failedDraw = .next (refusedBy failedDraw) ∧
    ¬(isBegin .reserved7 = true ∧ failedDraw.ds = .idle) ∧ State.reset.ds = .idle :=
  ⟨eq_next_of_nextOf (by decide), by decide, by decide⟩

theorem test_witness_FragmentRunsSelectedPath : pendingP1.ds = .opened ∧ pendingP1.u.mode ≠ 3#2 := by decide

theorem test_witness_FragmentOfFailedDrawAnswersConfigError : failedDraw.ds = .failed ∧ failedDraw.Inv :=
  ⟨rfl, test_inv_failed⟩

theorem test_witness_CommandsNeedingDrawRefusedInIdle :
    State.reset.ds = .idle ∧ Instr.pathInvalid7 fragAt0 ∈ Instr.endDraw :: .abortDraw :: fragmentRows fragAt0 := by
  decide

theorem test_witness_EndDrawClosesFailedDraw : failedDraw.ds = .failed ∧ failedDraw.Inv := ⟨rfl, test_inv_failed⟩

/-- A word with something pending, and a byte of a word with nothing pending, next to it. -/
theorem test_witness_EndDrawCommitsPendingWords :
    pendingP1.Inv ∧ pendingP1.ds = .opened ∧ pendAt pendingP1.pend (wa 101 100) ≠ [] ∧
    ∀ a : WordAddr, 205001 / 2 = a.toNat → pendAt pendingP1.pend a = [] := by
  refine ⟨test_inv_draw, by decide, by decide, fun a h => ?_⟩
  simp [pendAt, sparseGet, pendingP1, ← h]

theorem test_witness_AbortDrawKeepsOrCommitsEachWord :
    pendingP1.Inv ∧ pendingP1.ds ≠ .idle ∧ failedDraw.Inv ∧ failedDraw.ds = .failed ∧
    ∀ a : WordAddr, 205004 / 2 = a.toNat → pendAt pendingP1.pend a = [] := by
  refine ⟨test_inv_draw, by decide, test_inv_failed, by decide, fun a h => ?_⟩
  simp [pendAt, sparseGet, pendingP1, ← h]

/-- Index 7's entry 0x8421, and the same draw with the CLUT moved so that index 7 is the entry 0x0000. -/
theorem test_witness_FragTex4Result :
    (drawP1 0 true 0x3F800000).ds = .opened ∧ (drawP1 0 true 0x3F800000).u.ctrl = 0b100#3 ∧
    clutEntry (drawP1 0 true 0x3F800000) 4 fragAt0 = 0x8421 ∧
    clutEntry { drawP1 0 true 0 with live := stored [(0, 0, 0x0007), (7, 480, 0x0000)] } 4 fragAt0 = 0x0000 := by
  decide +kernel

theorem test_witness_FragTex8Result :
    (drawP1 1 true 0x3F000000).ds = .opened ∧ (drawP1 1 true 0x3F000000).u.ctrl = 0b101#3 ∧
    clutEntry (drawP1 1 true 0x3F000000) 2 (fragP1 false) = 0x0000 ∧
    clutEntry (drawP1 1 true 0x3F000000) 2 (fragP1 true) = 0x7FFF := by decide +kernel

theorem test_witness_FragTex15Result :
    (drawP1 2 true 0).ds = .opened ∧ (drawP1 2 true 0).u.ctrl = 0b110#3 := by decide

theorem test_witness_FragShadeResult :
    (drawP1 0 false 0).ds = .opened ∧ (drawP1 0 false 0).u.ctrl = 0b000#3 ∧ (drawP1 1 false 0).u.ctrl = 0b001#3 ∧
    (drawP1 2 false 0).u.ctrl = 0b010#3 := by decide

theorem test_witness_PendingWriteAddsOneWord :
    Pending.wf [(102501, [0x3DEF, 0x7FFF])] ∧ wa 1023 511 ≠ wa 101 100 := by decide

theorem test_witness_DiscardPrecedesModulation :
    (drawP1 1 true 0).ds = .opened ∧ (drawP1 1 true 0).u.ctrl = 0b101#3 ∧
    clutEntry (drawP1 1 true 0) 2 (fragP1 false) = 0x0000 ∧ clutEntry (drawP1 1 true 0) 2 (fragP1 true) ≠ 0x0000 ∧
    (drawP1 1 true 0).u.modR = 0#32 ∧ (drawP1 1 true 0).u.modG = 0#32 ∧ (drawP1 1 true 0).u.modB = 0#32 ∧
    (drawP1 0 true 0).u.ctrl = 0b100#3 ∧ clutEntry (drawP1 0 true 0) 4 fragAt0 ≠ 0x0000 := by decide +kernel

theorem test_witness_DirectPassThrough :
    (drawP1 2 true 0x3F800000).ds = .opened ∧ (drawP1 2 true 0x3F800000).u.ctrl = 0b110#3 ∧
    (drawP1 2 true 0x3F800000).u.modR = 0x3F800000#32 ∧ (drawP1 2 true 0x3F800000).u.modG = 0x3F800000#32 ∧
    (drawP1 2 true 0x3F800000).u.modB = 0x3F800000#32 := by decide

theorem test_witness_FragmentsCommute :
    pendingP1.Inv ∧ pendingP1.ds = .opened ∧
    (∀ x ∈ [(fragP1 true).u, (fragP1 true).v, (fragP1 true).r, (fragP1 true).g, (fragP1 true).b,
      fragAt0.u, fragAt0.v, fragAt0.r, fragAt0.g, fragAt0.b], isNaN x = false) ∧
    ∀ x ∈ [pendingP1.u.modR, pendingP1.u.modG, pendingP1.u.modB], isFinite32 x = true :=
  by
  refine ⟨test_inv_draw, by decide, ?_, ?_⟩ <;>
    simp only [List.forall_mem_cons, List.not_mem_nil, IsEmpty.forall_iff, implies_true, and_true] <;> decide +kernel

/-- Two draws that differ in PEND, the flags and every word but the texel and its entry. -/
theorem test_witness_FragmentDependsOnlyOnItsInputs :
    let s := drawP1 1 true 0x3F000000
    let s' := { s with live := stored [(5, 0, 0x1F00), (31, 480, 0x7FFF)], pend := [(1, [2])], protoErr := true }
    s.ds = .opened ∧ s'.ds = .opened ∧ s'.u = s.u ∧ s'.choices = s.choices ∧ s.u.ctrl = 0b101#3 ∧
      (s.u.ctrl = 0b100#3 → clutEntry s' 4 (fragP1 true) = clutEntry s 4 (fragP1 true)) ∧
      (s.u.ctrl = 0b101#3 → clutEntry s' 2 (fragP1 true) = clutEntry s 2 (fragP1 true)) ∧
      (s.u.ctrl = 0b110#3 → readWord s'.live (texelAddr s.choices 1 (fragP1 true)) =
        readWord s.live (texelAddr s.choices 1 (fragP1 true))) := by decide +kernel

theorem test_witness_ShadeReadsNoVramAndNoUniform :
    (drawP1 2 false 0).ds = .opened ∧ (drawP1 2 false 0).u.textured = false ∧ (drawP1 2 false 0).u.mode ≠ 3#2 ∧
    Uniform.reset.textured = false ∧ Uniform.reset.mode ≠ 3#2 := by decide

theorem test_witness_TexturePageBaseHasNoEffect :
    ¬(isBegin (.fragment fragAt0) = true ∧ pendingP1.ds = .idle) ∧
    ¬(isBegin (.beginTex8 drawArgs) = true ∧ failedDraw.ds = .idle) := by decide

/-- The largest finite value, and both infinities as the clauses name them. -/
theorem test_witness_TexelColumnIsClampedFloor :
    (4 ∈ [1, 2, 4] ∧ 1 ∈ [1, 2, 4]) ∧ isFinite32 0x7F7FFFFF = true ∧ isFinite32 0x7F800000 = false := by decide

theorem test_witness_TexelRowIsClampedFloor : isFinite32 0xFF7FFFFF = true ∧ isFinite32 0x80000000 = true := by decide

/-- Zero, and one half. -/
theorem test_witness_TexelAddressAgreesWithSource :
    2 ∈ [1, 2, 4] ∧ isFinite32 0x3F000000 = true ∧ 0 ≤ real32 0x3F000000 ∧ real32 0x3F000000 < 1 ∧
      0 ≤ real32 0x00000000 ∧ real32 0x00000000 < 1 := by
  have h : real32 0x3F000000 = 1 / 2 := by
    have e : ((0x3F000000#32).extractLsb' 23 8).toNat = 126 ∧ ((0x3F000000#32).extractLsb' 0 23).toNat = 0 ∧
      (0x3F000000#32).getLsbD 31 = false := by decide
    unfold real32; erw [e.1, e.2.1, e.2.2]; norm_num
  have z : real32 0x00000000 = 0 := by simp [real32]
  rw [h, z]
  exact ⟨by decide, by decide, by norm_num, by norm_num, by norm_num, by norm_num⟩

theorem test_witness_SubWordIndexExtraction : (1#2).toNat < 2 ∧ (0#2).toNat < 2 := by decide

theorem test_witness_AddressesSaturate :
    ({ Uniform.reset with clutX := 1016, clutY := 511 } : Uniform).clutX = 1016#16 ∧
    ({ Uniform.reset with clutX := 1016, clutY := 511 } : Uniform).clutY = 511#16 := by decide

theorem test_witness_DecodeChannelTable : isFinite32 0x00000001 = true ∧ isFinite32 0x80000000 = true := by decide

/-- Infinities are no NaN; the greatest value below a threshold and the threshold. -/
theorem test_witness_QuantizeCountsThresholds :
    isNaN 0xFF800000 = false ∧ isNaN 0x3D000105 = false ∧ isNaN 0x3D000106 = false := by decide

theorem test_witness_ChannelRangeLaw :
    isFinite32 0x3F000000 = true ∧ 0 ≤ real32 0x3F000000 ∧ real32 0x3F000000 ≤ 1 := by
  have h := test_witness_TexelAddressAgreesWithSource
  exact ⟨h.2.1, h.2.2.1, h.2.2.2.1.le⟩

theorem test_witness_MaskedBlackStaysUnderFiniteModulation :
    ∀ x ∈ [0x7F7FFFFF#32, 0x80000000#32, 0xBF800000#32], isFinite32 x = true := by
  simp only [List.forall_mem_cons, List.not_mem_nil, IsEmpty.forall_iff, implies_true, and_true]; decide

/-- A rounded product, a subnormal one, and a product that overflows, which the statement leaves out. -/
theorem test_witness_MultiplyIsCorrectlyRounded :
    isFinite32 0x3DCCCCCD = true ∧ isFinite32 (fmul32 0x3DCCCCCD 0x3DCCCCCD) = true ∧
    isFinite32 (fmul32 0x00000001 0x3F000000) = true ∧ isFinite32 (fmul32 0x7F7FFFFF 0x40000000) = false := by
  decide +kernel

/-- The byte just below the stored word. -/
theorem test_witness_VramWriteStoresWord : State.reset.ds = .idle ∧ 1048573 / 2 ≠ (clampedAddr 2000 5000).toNat := by
  decide +kernel

theorem test_witness_VramWriteInsideDrawRefused : pendingP1.ds ≠ .idle ∧ failedDraw.ds ≠ .idle := by decide

theorem test_witness_VramReadReturnsWord : State.reset.ds = .idle := by decide

theorem test_witness_VramReadInsideDrawPicks :
    pendingP1.ds ≠ .idle ∧ pendAt pendingP1.pend (clampedAddr 100 100) = [] ∧
    pendAt pendingP1.pend (clampedAddr 101 100) ≠ [] := by decide

theorem test_witness_CommittedWordIsReadBack :
    pendingP1.Inv ∧ pendingP1.ds = .opened ∧ pendAt pendingP1.pend (clampedAddr 101 100) = [0x3DEF#16] :=
  ⟨test_inv_draw, by decide, by decide⟩

theorem test_witness_StepKeepsInvariant : State.reset.Inv ∧ pendingP1.Inv ∧ failedDraw.Inv :=
  ⟨test_inv_reset, test_inv_draw, test_inv_failed⟩

theorem test_witness_OnlyThreeCommandsChangeVram :
    (exec (.vramWrite 7 7 1 0) failedDraw = .next (refusedBy failedDraw) ∧ Instr.vramWrite 7 7 1 0 ≠ .endDraw ∧
      Instr.vramWrite 7 7 1 0 ≠ .abortDraw ∧ failedDraw.ds ≠ .idle) ∧
    (exec .readStatus State.reset = .next (answered State.reset 0) ∧ Instr.readStatus ≠ .endDraw ∧
      Instr.readStatus ≠ .abortDraw ∧ ∀ x y w rsv, Instr.readStatus ≠ .vramWrite x y w rsv) :=
  ⟨⟨eq_next_of_nextOf (by decide), by decide, by decide, by decide⟩,
    eq_next_of_nextOf (by decide), by decide, by decide, fun _ _ _ _ h => nomatch h⟩

/-- A run of one READ_STATUS inside a draw with a pending word. -/
theorem test_witness_DrawReadsItsSnapshot :
    let s := { pendingP1 with stream := [0x00000006] }
    s.ds ≠ .idle ∧ WithinDraw s { pendingP1 with responses := [0x00510000] } ∧
      0x3DEF#16 ∈ pendAt s.pend (wa 101 100) :=
  ⟨by decide, .after .here (eq_next_of_nextOf (by decide)) (by decide), by decide⟩

end Sys2Proof.Tests
end

/-! SUPPORT. Proofs for the family 00_scope.md: PendWrite's effect on PEND (R11, R22), and that `roundF32`, and with it
`fmul32`, is correctly rounded (R10). Laws/Float.lean proves the rounding for magnitudes; here the signs are added. -/

namespace Sys2Proof.Machine

/-! ## Pending writes (R11, R22) -/

/-- Settles O29: `pendAt_pendWrite` is the whole effect at every address, `pendWrite_wf` keeps the canonical form. -/
theorem pendingWriteAddsOneWord : Obligations.PendingWriteAddsOneWord := by
  intro p a w
  refine ⟨fun v => ?_, fun b hb => ?_, fun h => pendWrite_wf h a w⟩
  · rw [pendAt_pendWrite, if_pos rfl, mem_setInsert]
  · rw [pendAt_pendWrite, if_neg hb]

/-! ## Signed values (R10) -/

/-- The sign of a value as a factor. -/
def signFactor (neg : Bool) : ℚ := if neg then -1 else 1

@[simp] theorem signFactor_true : signFactor true = -1 := rfl

@[simp] theorem signFactor_false : signFactor false = 1 := rfl

theorem signFactor_xor (s t : Bool) : signFactor (s ^^ t) = signFactor s * signFactor t := by
  cases s <;> cases t <;> norm_num

theorem signFactor_not (s : Bool) : signFactor (!s) = -signFactor s := by
  cases s <;> norm_num

@[simp] theorem abs_signFactor (s : Bool) : |signFactor s| = 1 := by
  cases s <;> simp

theorem real32_eq_signFactor (x : F32) :
    real32 x = signFactor (f32Sign x) * ((magnitudeVal (magnitude x) : ℚ) / 2 ^ 149) := by
  rw [real32_eq]
  cases f32Sign x <;> simp

/-- The product of two values has the product of their magnitudes, and its sign is the exclusive or of theirs. -/
theorem real32_mul (a b : F32) :
    real32 a * real32 b = signFactor (f32Sign a ^^ f32Sign b) *
      (((magnitudeVal (magnitude a) * magnitudeVal (magnitude b) : Nat) : ℚ) / (2 ^ 149 * 2 ^ 149 : Nat)) := by
  rw [real32_eq_signFactor a, real32_eq_signFactor b, signFactor_xor]
  push_cast
  ring

/-- The distance of a value from a number of the same sign is that of the magnitudes. -/
theorem abs_real32_sub_same {y : F32} {neg : Bool} (h : f32Sign y = neg) (q : ℚ) :
    |real32 y - signFactor neg * (q / 2 ^ 149)| = |(magnitudeVal (magnitude y) : ℚ) - q| / 2 ^ 149 := by
  have hunit : (0 : ℚ) < 2 ^ 149 := by positivity
  rw [real32_eq_signFactor, h, ← mul_sub, ← sub_div, abs_mul, abs_signFactor, one_mul, abs_div, abs_of_pos hunit]

/-- The distance of a value from a number of the other sign is the sum of the magnitudes. -/
theorem abs_real32_sub_other {y : F32} {neg : Bool} (h : f32Sign y = !neg) {q : ℚ} (hq : 0 ≤ q) :
    |real32 y - signFactor neg * (q / 2 ^ 149)| = ((magnitudeVal (magnitude y) : ℚ) + q) / 2 ^ 149 := by
  rw [real32_eq_signFactor, h, signFactor_not, neg_mul, ← neg_add', abs_neg, ← mul_add, ← add_div, abs_mul,
    abs_signFactor, one_mul, abs_of_nonneg (by positivity)]

/-- The lowest bit of a pattern is that of its magnitude. -/
theorem getLsbD_zero_of_even {x : F32} (h : magnitude x % 2 = 0) : x.getLsbD 0 = false := by
  unfold magnitude at h
  rw [BitVec.extractLsb'_toNat, Nat.shiftRight_zero] at h
  rw [BitVec.getLsbD, Nat.testBit_zero, decide_eq_false_iff_not]
  omega

/-! ## Correct rounding (R10) -/

/-- The sign and the magnitude bits of a rounded value. -/
theorem roundF32_fields (neg : Bool) (n d : Nat) :
    magnitude (roundF32 neg n d) = roundMagnitude n d ∧ f32Sign (roundF32 neg n d) = neg :=
  signed_fields neg (by have := roundMagnitude_le n d; omega)

/-- `± n / d` is rounded to a nearest value when it does not overflow, and to an even significand where another value is as
near. A value of the other sign is no nearer than zero, so the comparison with it is the one with the magnitude 0. -/
theorem roundF32_nearest {neg : Bool} {n d : Nat} (hd : d ≠ 0) (hf : isFinite32 (roundF32 neg n d) = true) (y : F32) :
    |real32 (roundF32 neg n d) - signFactor neg * (n / d)| ≤ |real32 y - signFactor neg * (n / d)| ∧
    (|real32 (roundF32 neg n d) - signFactor neg * (n / d)| = |real32 y - signFactor neg * (n / d)| →
      real32 y ≠ real32 (roundF32 neg n d) → (roundF32 neg n d).getLsbD 0 = false) := by
  obtain ⟨hmag, hsign⟩ := roundF32_fields neg n d
  rw [isFinite32_iff, hmag] at hf
  have hnear := roundMagnitude_nearest hd hf
  have heven : roundMagnitude n d % 2 = 0 → (roundF32 neg n d).getLsbD 0 = false := fun h =>
    getLsbD_zero_of_even (hmag ▸ h)
  have hunits : (n / d : ℚ) = n * 2 ^ 149 / d / 2 ^ 149 := by field_simp
  have hx : (0 : ℚ) ≤ n * 2 ^ 149 / d := by positivity
  rw [hunits, abs_real32_sub_same hsign, hmag]
  have hval : real32 (roundF32 neg n d) = signFactor neg * ((magnitudeVal (roundMagnitude n d) : ℚ) / 2 ^ 149) := by
    rw [real32_eq_signFactor, hsign, hmag]
  have hunit : (0 : ℚ) < 2 ^ 149 := by positivity
  rcases Bool.eq_or_eq_not (f32Sign y) neg with hy | hy
  · obtain ⟨hle, htie⟩ := hnear (magnitude y)
    rw [abs_real32_sub_same hy, div_le_div_iff_of_pos_right hunit, div_left_inj' hunit.ne']
    refine ⟨hle, fun heq hne => heven (htie heq fun hm => hne ?_)⟩
    rw [hval, real32_eq_signFactor, hy, hm]
  · obtain ⟨hle, htie⟩ := hnear 0
    have hzero : magnitudeVal 0 = 0 := rfl
    have hpos : (0 : ℚ) ≤ magnitudeVal (magnitude y) := Nat.cast_nonneg _
    rw [hzero, Nat.cast_zero, zero_sub, abs_neg, abs_of_nonneg hx] at hle htie
    rw [abs_real32_sub_other hy hx, div_le_div_iff_of_pos_right hunit, div_left_inj' hunit.ne']
    refine ⟨by linarith, fun heq hne => heven (htie (by linarith) fun hm => hne ?_)⟩
    have hy0 : (magnitudeVal (magnitude y) : ℚ) = 0 := by linarith
    rw [hval, real32_eq_signFactor, hy0, ← hm, Nat.cast_zero, zero_div, mul_zero, mul_zero]

/-- Settles O48: the exact product is `± n / d` for the `n` and `d` that `fmul32` rounds. -/
theorem multiplyIsCorrectlyRounded : Obligations.MultiplyIsCorrectlyRounded := by
  intro a b ha hb hf y _
  have hround : fmul32 a b = roundF32 (f32Sign a ^^ f32Sign b)
      (magnitudeVal (magnitude a) * magnitudeVal (magnitude b)) (2 ^ 149 * 2 ^ 149) := fmul32_finite ha hb
  rw [hround] at hf ⊢
  rw [real32_mul]
  exact roundF32_nearest (by positivity) hf y

end Sys2Proof.Machine

/-! SUPPORT. Proofs for the family 10_state.md: the invariant of the machine (R20, R22, R24), who writes the uniform
latch (R26), and the sticky flags (R27). Each is read off `exec_result`, the one list of what an instruction answers. -/

namespace Sys2Proof.Machine

section
variable (s : State) (r : Cmd) (f : FragIn) (p : Pixel)

/-! ## Fields after the three outcomes that leave the draw as it is -/

@[simp] theorem refusedBy_u : (refusedBy s).u = s.u := rfl
@[simp] theorem refusedBy_cfgErr : (refusedBy s).cfgErr = s.cfgErr := rfl
@[simp] theorem refusedBy_protoErr : (refusedBy s).protoErr = true := rfl

@[simp] theorem answered_u : (answered s r).u = s.u := rfl
@[simp] theorem answered_cfgErr : (answered s r).cfgErr = s.cfgErr := rfl
@[simp] theorem answered_protoErr : (answered s r).protoErr = s.protoErr := rfl

@[simp] theorem finishPixel_live : (finishPixel f p s).live = s.live := by cases p <;> rfl
@[simp] theorem finishPixel_ds : (finishPixel f p s).ds = s.ds := by cases p <;> rfl
@[simp] theorem finishPixel_u : (finishPixel f p s).u = s.u := by cases p <;> rfl
@[simp] theorem finishPixel_cfgErr : (finishPixel f p s).cfgErr = s.cfgErr := by cases p <;> rfl
@[simp] theorem finishPixel_protoErr : (finishPixel f p s).protoErr = s.protoErr := by cases p <;> rfl

end

/-! ## The invariant (R20, R22, R24, R51, R54, R55, R161) -/

theorem pendingWf_nil : Pending.wf [] := by simp [Pending.wf]

/-- The end of a fragment path adds at most one pending write, so PEND stays canonical (R184, R210). -/
theorem finishPixel_pendWf {s : State} (h : Pending.wf s.pend) (f : FragIn) (p : Pixel) :
    Pending.wf (finishPixel f p s).pend := by
  rcases finishPixel_cases f p s with ⟨-, h'⟩ | ⟨out, tm, -, h'⟩ <;> rw [h']
  · exact h
  · exact pendWrite_wf h _ out

/-- END_DRAW commits whole words inside the extent (R54, R55, R232). -/
theorem commitAll_keeps (i : Nat) (p : Pending) {m : Memory} (hw : Memory.wf m) (hh : Memory.whole m) :
    Memory.wf (commitAll i m p) ∧ Memory.whole (commitAll i m p) :=
  foldl_keeps (commitEntry_writes i) p hw hh

/-- ABORT_DRAW writes whole words inside the extent (R54, R55, R234). -/
theorem abortAll_keeps (i : Nat) (p : Pending) {m : Memory} (hw : Memory.wf m) (hh : Memory.whole m) :
    Memory.wf (abortAll i m p) ∧ Memory.whole (abortAll i m p) :=
  foldl_keeps (abortEntry_cases i) p hw hh

/-- The invariant reads LIVE, PEND, the draw state, the uniform and `CFG_ERR` only: `PROTO_ERR`, the two channels and
the counter are free. -/
theorem State.Inv.of_sameDraw {s t : State} (h : s.Inv) (hlive : t.live = s.live) (hpend : t.pend = s.pend)
    (hds : t.ds = s.ds) (hu : t.u = s.u) (hcfg : t.cfgErr = s.cfgErr) : t.Inv where
  liveWf     := hlive ▸ h.liveWf
  liveWhole  := hlive ▸ h.liveWhole
  pendWf     := hpend ▸ h.pendWf
  pendEmpty  := by rw [hds, hpend]; exact h.pendEmpty
  openMode   := by rw [hds, hu]; exact h.openMode
  failedMode := by rw [hds, hu]; exact h.failedMode
  failedFlag := by rw [hds, hcfg]; exact h.failedFlag

/-- With no draw open the invariant asks for a canonical LIVE and an empty PEND only. -/
theorem inv_of_idle {t : State} (hds : t.ds = .idle) (hpend : t.pend = [])
    (hlive : Memory.wf t.live ∧ Memory.whole t.live) : t.Inv where
  liveWf     := hlive.1
  liveWhole  := hlive.2
  pendWf     := hpend ▸ pendingWf_nil
  pendEmpty  := fun _ => hpend
  openMode   := by simp [hds]
  failedMode := by simp [hds]
  failedFlag := by simp [hds]

/-- In an OPEN draw the invariant asks for canonical LIVE and PEND and a valid mode. -/
theorem inv_of_opened {t : State} (hds : t.ds = .opened) (hmode : t.u.mode ≠ 3#2) (hpend : Pending.wf t.pend)
    (hlive : Memory.wf t.live ∧ Memory.whole t.live) : t.Inv where
  liveWf     := hlive.1
  liveWhole  := hlive.2
  pendWf     := hpend
  pendEmpty  := fun h => absurd hds h
  openMode   := fun _ => hmode
  failedMode := by simp [hds]
  failedFlag := by simp [hds]

/-- In a FAILED draw the invariant asks for a canonical LIVE, an empty PEND, mode 3 and `CFG_ERR`. -/
theorem inv_of_failed {t : State} (hds : t.ds = .failed) (hmode : t.u.mode = 3#2) (hcfg : t.cfgErr = true)
    (hpend : t.pend = []) (hlive : Memory.wf t.live ∧ Memory.whole t.live) : t.Inv where
  liveWf     := hlive.1
  liveWhole  := hlive.2
  pendWf     := hpend ▸ pendingWf_nil
  pendEmpty  := fun _ => hpend
  openMode   := by simp [hds]
  failedMode := fun _ => hmode
  failedFlag := fun _ => hcfg

/-- Every next state that an instruction can answer keeps the invariant. -/
theorem Result.keeps_inv {i : Instr} {s t : State} (hr : Result i s t) (h : s.Inv) : t.Inv := by
  have hlive : Memory.wf s.live ∧ Memory.whole s.live := ⟨h.liveWf, h.liveWhole⟩
  cases hr with
  | refused | cfgError | readIdle | readInDraw | status => exact h.of_sameDraw rfl rfl rfl rfl rfl
  | opened mode tx d _ _ hmode _ => exact inv_of_opened rfl hmode pendingWf_nil hlive
  | failed tx d _ _ hds => exact inv_of_failed rfl rfl rfl (h.pendEmpty (by simp [hds])) hlive
  | pixel f p _ hds =>
    refine inv_of_opened (by simpa using hds) ?_ (finishPixel_pendWf h.pendWf f p) (by simpa using hlive)
    simpa using h.openMode hds
  | endFailed _ hds => exact inv_of_idle rfl (h.pendEmpty (by simp [hds])) hlive
  | endOpened => exact inv_of_idle rfl rfl (commitAll_keeps _ _ h.liveWf h.liveWhole)
  | aborted => exact inv_of_idle rfl rfl (abortAll_keeps _ _ h.liveWf h.liveWhole)
  | wrote x y w _ hds =>
    exact inv_of_idle hds (h.pendEmpty (by simp [hds])) ⟨writeWord_wf h.liveWf _ w, writeWord_whole h.liveWhole _ w⟩

/-- Settles O57: a step is idle, or takes a packet, which the invariant does not see, and executes it. -/
theorem stepKeepsInvariant : Obligations.StepKeepsInvariant := by
  intro s h
  rcases step_cases s with ⟨_, _, hstep⟩ | ⟨i, rest, _, hstep⟩
  · exact ⟨s, hstep, h⟩
  · obtain ⟨t, hexec, hr⟩ := exec_result i { s with stream := rest }
    exact ⟨t, hstep.trans hexec, hr.keeps_inv (h.of_sameDraw rfl rfl rfl rfl rfl)⟩

/-! ## The uniform latch (R25, R26) -/

/-- Only a BEGIN_DRAW that finds no draw open writes `U` (R26). -/
theorem Result.u_eq {i : Instr} {s t : State} (hr : Result i s t) (hn : ¬(isBegin i = true ∧ s.ds = .idle)) :
    t.u = s.u := by
  cases hr with
  | opened mode tx d hbegin _ _ hds => exact absurd ⟨hbegin, hds⟩ hn
  | failed tx d hbegin _ hds => exact absurd ⟨hbegin, hds⟩ hn
  | pixel f p => exact finishPixel_u s f p
  | refused | cfgError | endFailed | endOpened | aborted | wrote | readIdle | readInDraw | status => rfl

/-- A BEGIN_DRAW packet with tag 3 runs the row of a failed draw whatever `t` is (R92, R223). -/
theorem exec_beginRow_badMode (tx : Bool) (d : DrawIn) (s : State) :
    exec (beginRow 3#2 tx d) s = .next (beginFailed tx d s) := by
  cases tx <;> rfl

/-- A BEGIN_DRAW packet with a valid tag runs the row of its `mode` and `t` (R92, R222). -/
theorem exec_beginRow_validMode {mode : BitVec 2} (hmode : mode ≠ 3#2) (tx : Bool) (d : DrawIn) (s : State) :
    exec (beginRow mode tx d) s = .next (beginDraw mode tx d s) := by
  have hvalid : mode = 0#2 ∨ mode = 1#2 ∨ mode = 2#2 := by bv_omega
  rcases hvalid with rfl | rfl | rfl <;> cases tx <;> rfl

/-- BEGIN_DRAW in IDLE latches its whole operand, of a valid tag or not (R25, R26). -/
theorem beginDraw_u_of_idle (mode : BitVec 2) (tx : Bool) (d : DrawIn) {s : State} (h : s.ds = .idle) :
    (beginDraw mode tx d s).u = latch mode tx d := by
  rcases beginDraw_cases mode tx d s with ⟨_, h'⟩ | ⟨hne, _⟩
  · rw [h']
  · exact absurd h hne

theorem beginFailed_u_of_idle (tx : Bool) (d : DrawIn) {s : State} (h : s.ds = .idle) :
    (beginFailed tx d s).u = latch 3#2 tx d := by
  rcases beginFailed_cases tx d s with ⟨_, h'⟩ | ⟨hne, _⟩
  · rw [h']
  · exact absurd h hne

/-- Settles O18: `Result.u_eq` for every other command; the two forms of BEGIN_DRAW latch all nine fields. -/
theorem uniformWrittenOnlyByAcceptedBegin : Obligations.UniformWrittenOnlyByAcceptedBegin := by
  refine ⟨fun i s t hexec hn => ?_, fun mode tx d s hds => ?_⟩
  · obtain ⟨t', hexec', hr⟩ := exec_result i s
    obtain rfl : t' = t := by simpa [hexec'] using hexec
    exact hr.u_eq hn
  · by_cases hmode : mode = 3#2
    · subst hmode
      exact ⟨_, exec_beginRow_badMode tx d s, beginFailed_u_of_idle tx d hds⟩
    · exact ⟨_, exec_beginRow_validMode hmode tx d s, beginDraw_u_of_idle mode tx d hds⟩

/-! ## The sticky flags (R27, R261, R262) -/

@[simp] theorem drawOpen_iff (d : DrawState) : d.drawOpen = true ↔ d ≠ .idle := by
  cases d <;> simp [DrawState.drawOpen]

@[simp] theorem drawOpen_eq_false_iff (d : DrawState) : d.drawOpen = false ↔ d = .idle := by
  cases d <;> simp [DrawState.drawOpen]

theorem isBegin_of_isBadBegin {i : Instr} (h : isBadBegin i = true) : isBegin i = true := by
  cases i with
  | beginBadU _ | beginBadT _ => rfl
  | _ => cases h

/-- The cause of a refused BEGIN_DRAW of any tag: a draw is open (R241, R262). -/
theorem violatesProtocol_of_isBegin {i : Instr} (h : isBegin i = true) (s : State) :
    violatesProtocol i s = s.ds.drawOpen := by
  cases i with
  | beginShade0 _ | beginShade1 _ | beginShade2 _ | beginBadU _ | beginTex4 _ | beginTex8 _ | beginTex15 _
  | beginBadT _ => rfl
  | _ => cases h

/-- A command is refused for one of R262's five causes, or has none of them and leaves `PROTO_ERR` as it was. -/
theorem Result.refused_or_protoErr_eq {i : Instr} {s t : State} (hr : Result i s t) :
    (violatesProtocol i s = true ∧ t = refusedBy s) ∨ (violatesProtocol i s = false ∧ t.protoErr = s.protoErr) := by
  cases hr with
  | refused hv => exact .inl ⟨hv, rfl⟩
  | cfgError hv => exact .inr ⟨hv, rfl⟩
  | opened _ _ _ hbegin _ _ hds | failed _ _ hbegin _ hds =>
    exact .inr ⟨by simpa [violatesProtocol_of_isBegin hbegin] using hds, rfl⟩
  | pixel f p hi hds =>
    obtain ⟨-, -, -, hv⟩ := fragmentRow_group hi
    exact .inr ⟨by simp [hv, hds], finishPixel_protoErr s f p⟩
  | endFailed hi hds | endOpened hi hds | aborted hi hds | wrote _ _ _ hi hds =>
    subst hi
    exact .inr ⟨by simp [violatesProtocol, hds], rfl⟩
  | readIdle _ _ hi | readInDraw _ _ _ hi | status hi =>
    subst hi
    exact .inr ⟨rfl, rfl⟩

/-- A command is an accepted BEGIN_DRAW with tag 3, which sets `CFG_ERR`, or leaves `CFG_ERR` as it was (R27, R261). -/
theorem Result.badBegin_or_cfgErr_eq {i : Instr} {s t : State} (hr : Result i s t) :
    ((isBadBegin i = true ∧ s.ds = .idle) ∧ t.cfgErr = true) ∨
      (¬(isBadBegin i = true ∧ s.ds = .idle) ∧ t.cfgErr = s.cfgErr) := by
  cases hr with
  | failed _ _ _ hbad hds => exact .inl ⟨⟨hbad, hds⟩, rfl⟩
  | refused hv =>
    refine .inr ⟨fun ⟨hbad, hds⟩ => ?_, rfl⟩
    rw [violatesProtocol_of_isBegin (isBegin_of_isBadBegin hbad), drawOpen_iff] at hv
    exact hv hds
  | opened _ _ _ _ hgood => exact .inr ⟨by simp [hgood], rfl⟩
  | pixel f p _ hds => exact .inr ⟨by simp [hds], finishPixel_cfgErr s f p⟩
  | cfgError _ _ hds | endFailed _ hds | endOpened _ hds | aborted _ hds | readInDraw _ _ _ _ hds =>
    exact .inr ⟨by simp [hds], rfl⟩
  | wrote _ _ _ hi | readIdle _ _ hi | status hi =>
    subst hi
    exact .inr ⟨by simp [isBadBegin], rfl⟩

/-- Settles O58: each flag is set by its own cause and otherwise keeps its value, so none is ever cleared. -/
theorem flagsAreStickyAndExact : Obligations.FlagsAreStickyAndExact := by
  intro i s
  obtain ⟨t, hexec, hr⟩ := exec_result i s
  refine ⟨t, hexec, ?_, ?_⟩
  · rcases hr.badBegin_or_cfgErr_eq with ⟨hcause, hset⟩ | ⟨hnone, hkept⟩
    · simp [hset, hcause]
    · rw [hkept, or_iff_left hnone]
  · rcases hr.refused_or_protoErr_eq with ⟨hcause, rfl⟩ | ⟨hnone, hkept⟩
    · simp [hcause]
    · simp [hkept, hnone]

end Sys2Proof.Machine

/-! SUPPORT. Proofs for the family 20_memory.md: which commands change VRAM (R56, R60), and that one draw reads VRAM and
the uniform as they were when it opened (R26, R59, R60). Both are read off `exec_result`. -/

namespace Sys2Proof.Machine

/-! ## Which commands change VRAM (R56, R60) -/

/-- LIVE keeps its value, unless END_DRAW or ABORT_DRAW closes the draw or VRAM_WRITE runs with no draw open. -/
theorem Result.live_eq_or {i : Instr} {s t : State} (hr : Result i s t) :
    t.live = s.live ∨ ((i = .endDraw ∨ i = .abortDraw) ∧ t.ds = .idle) ∨
      ((∃ x y w, i = .vramWrite x y w 0#16) ∧ s.ds = .idle) := by
  cases hr with
  | endOpened hi => exact .inr (.inl ⟨.inl hi, rfl⟩)
  | aborted hi => exact .inr (.inl ⟨.inr hi, rfl⟩)
  | wrote x y w hi hds => exact .inr (.inr ⟨⟨x, y, w, hi⟩, hds⟩)
  | pixel f p => exact .inl (finishPixel_live s f p)
  | refused | cfgError | opened | failed | endFailed | readIdle | readInDraw | status => exact .inl rfl

/-- Settles O59: of the three commands that can change LIVE, VRAM_WRITE does so only with no draw open. -/
theorem onlyThreeCommandsChangeVram : Obligations.OnlyThreeCommandsChangeVram := by
  intro i s t hexec hend habort hwrite b
  obtain ⟨t', hexec', hr⟩ := exec_result i s
  obtain rfl : t' = t := by simpa [hexec'] using hexec
  rcases hr.live_eq_or with hlive | ⟨rfl | rfl, -⟩ | ⟨⟨x, y, w, rfl⟩, hds⟩
  · rw [hlive]
  · exact absurd rfl hend
  · exact absurd rfl habort
  · rcases hwrite with hother | hopen
    · exact absurd rfl (hother x y w 0#16)
    · exact absurd hds hopen

/-! ## One draw reads its snapshot (R26, R59, R60) -/

/-- A pending write takes no word out of any set (R11, R22). -/
theorem mem_pendAt_pendWrite {p : Pending} {b : WordAddr} {v : Word} (h : v ∈ pendAt p b) (a : WordAddr) (w : Word) :
    v ∈ pendAt (pendWrite p a w) b := by
  rw [pendAt_pendWrite]
  split
  · rename_i hba
    subst hba
    exact (mem_setInsert w v _).2 (.inr h)
  · exact h

/-- The end of a fragment path adds at most one pending write, so PEND loses no word (R210). -/
theorem mem_pendAt_finishPixel {s : State} {a : WordAddr} {w : Word} (h : w ∈ pendAt s.pend a) (f : FragIn)
    (p : Pixel) : w ∈ pendAt (finishPixel f p s).pend a := by
  rcases finishPixel_cases f p s with ⟨-, h'⟩ | ⟨out, tm, -, h'⟩ <;> rw [h']
  · exact h
  · exact mem_pendAt_pendWrite h _ out

/-- What a draw sees is the same in `t` as in `s`: the uniform and LIVE are unchanged, and PEND has lost no word. -/
structure SnapshotKept (s t : State) : Prop where
  u        : t.u = s.u
  live     : t.live = s.live
  pendMono : ∀ (a : WordAddr) (w : Word), w ∈ pendAt s.pend a → w ∈ pendAt t.pend a

theorem SnapshotKept.refl (s : State) : SnapshotKept s s := ⟨rfl, rfl, fun _ _ h => h⟩

theorem SnapshotKept.trans {s t v : State} (hst : SnapshotKept s t) (htv : SnapshotKept t v) : SnapshotKept s v where
  u        := htv.u.trans hst.u
  live     := htv.live.trans hst.live
  pendMono := fun a w h => htv.pendMono a w (hst.pendMono a w h)

/-- PEND is emptied only where a draw opens or closes (R22). -/
theorem Result.pend_mono {i : Instr} {s t : State} (hr : Result i s t) (hs : s.ds ≠ .idle) (ht : t.ds ≠ .idle)
    (a : WordAddr) (w : Word) (h : w ∈ pendAt s.pend a) : w ∈ pendAt t.pend a := by
  cases hr with
  | pixel f p => exact mem_pendAt_finishPixel h f p
  | opened _ _ _ _ _ _ hds => exact absurd hds hs
  | endOpened | aborted => exact absurd rfl ht
  | refused | cfgError | failed | endFailed | wrote | readIdle | readInDraw | status => exact h

/-- A command that runs inside a draw and leaves it open keeps the draw's snapshot. -/
theorem Result.snapshotKept {i : Instr} {s t : State} (hr : Result i s t) (hs : s.ds ≠ .idle) (ht : t.ds ≠ .idle) :
    SnapshotKept s t where
  u        := hr.u_eq fun ⟨_, hds⟩ => hs hds
  live     := by
    rcases hr.live_eq_or with hlive | ⟨-, hds⟩ | ⟨-, hds⟩
    · exact hlive
    · exact absurd hds ht
    · exact absurd hds hs
  pendMono := hr.pend_mono hs ht

/-- A step is idle, or takes a packet out of the stream, which the snapshot does not see, and executes it. -/
theorem step_snapshotKept {s t : State} (hstep : step s = .next t) (hs : s.ds ≠ .idle) (ht : t.ds ≠ .idle) :
    SnapshotKept s t := by
  rcases step_cases s with ⟨_, _, hidle⟩ | ⟨i, rest, _, hrun⟩
  · obtain rfl : s = t := by simpa [hidle] using hstep
    exact .refl s
  · obtain ⟨t', hexec, hr⟩ := exec_result i { s with stream := rest }
    obtain rfl : t' = t := by simpa [hrun, hexec] using hstep
    obtain ⟨hu, hlive, hpend⟩ := hr.snapshotKept hs ht
    exact ⟨hu, hlive, hpend⟩

theorem WithinDraw.ds_ne_idle {s t : State} (h : WithinDraw s t) (hs : s.ds ≠ .idle) : t.ds ≠ .idle := by
  cases h with
  | here => exact hs
  | after _ _ ht => exact ht

/-- A run inside one draw keeps the draw's snapshot. -/
theorem WithinDraw.snapshotKept {s t : State} (h : WithinDraw s t) (hs : s.ds ≠ .idle) : SnapshotKept s t := by
  induction h with
  | here => exact .refl s
  | after hrun hstep ht ih => exact ih.trans (step_snapshotKept hstep (hrun.ds_ne_idle hs) ht)

/-- Settles O60: the snapshot is kept along the run, and equal memories read the same. -/
theorem drawReadsItsSnapshot : Obligations.DrawReadsItsSnapshot := by
  intro s t hs hrun
  obtain ⟨hu, hlive, hpend⟩ := hrun.snapshotKept hs
  exact ⟨hu, fun a => by rw [hlive], hpend⟩

end Sys2Proof.Machine

/-! SUPPORT. Proofs for the family 30_encoding.md: packets (R80 to R87, R96), the exact rows and the ILLEGAL row (R94), the
path field (R92), the response word (R88, R89), and the fields DECODE reads (R91, R120). A decoded packet is `decodePacket`
of a header and a payload of the header's length; each of the groups of rows is then read back by its own lemma. -/

namespace Sys2Proof.Machine

/-! ## Packets in the stream (R82, R96) -/

theorem one_le_packetLen (h : Cmd) : 1 ≤ packetLen h := by
  unfold packetLen
  split <;> decide

theorem decode_of_length_le {h : Cmd} {ps : List Cmd} (hlen : packetLen h ≤ (h :: ps).length) :
    decode (h :: ps) = .ok (decodePacket h (ps.take (packetLen h - 1)), ps.drop (packetLen h - 1)) := by
  rw [List.length_cons] at hlen
  exact if_neg (by omega)

theorem decode_of_length_lt {h : Cmd} {ps : List Cmd} (hlen : (h :: ps).length < packetLen h) :
    decode (h :: ps) = .error (.truncated (packetLen h - 1 - ps.length)) := by
  rw [List.length_cons] at hlen
  exact if_pos (by omega)

/-- A whole packet is read as such, whatever follows it. -/
theorem decode_packet_append {h : Cmd} {ps : List Cmd} (hlen : ps.length + 1 = packetLen h) (rest : List Cmd) :
    decode (h :: ps ++ rest) = .ok (decodePacket h ps, rest) := by
  have hps : packetLen h - 1 = ps.length := by omega
  rw [List.cons_append, decode_of_length_le (by simp; omega), hps, List.take_left, List.drop_left]

/-- Everything the decoder can read: a whole packet from the head of the words. -/
theorem packet_of_decode {ws rest : List Cmd} {i : Instr} (hd : decode ws = .ok (i, rest)) :
    ∃ h ps, ws = h :: ps ++ rest ∧ ps.length + 1 = packetLen h ∧ i = decodePacket h ps := by
  cases ws with
  | nil => cases hd
  | cons h tail =>
    have hpos := one_le_packetLen h
    rcases lt_or_ge (h :: tail).length (packetLen h) with hlen | hlen
    · rw [decode_of_length_lt hlen] at hd
      cases hd
    · rw [decode_of_length_le hlen] at hd
      cases hd
      rw [List.length_cons] at hlen
      refine ⟨h, tail.take (packetLen h - 1), ?_, ?_, rfl⟩
      · rw [List.cons_append, List.take_append_drop]
      · rw [List.length_take]
        omega

/-- Settles O3: the length by the eight values of `op`, and the two outcomes of a decode by length. -/
theorem packetLengthFollowsFromOp : Obligations.PacketLengthFollowsFromOp := by
  refine ⟨fun h => ?_, fun h ps hlen => ⟨_, decode_of_length_le hlen⟩, fun h ps hlen => ⟨_, decode_of_length_lt hlen⟩⟩
  unfold packetLen
  generalize h.extractLsb' 0 3 = op
  revert op
  decide

/-! ## Operand words (R83 to R85) -/

@[simp] theorem pairLo_pair (hi lo : Word) : pairLo (pair hi lo) = lo := BitVec.extractLsb'_append_eq_right

@[simp] theorem pairHi_pair (hi lo : Word) : pairHi (pair hi lo) = hi := BitVec.extractLsb'_append_eq_left

@[simp] theorem pair_pairHi_pairLo (w : Cmd) : pair (pairHi w) (pairLo w) = w := BitVec.extractLsb'_append_extractLsb'

@[simp] theorem payloadWord_cons_zero (p : Cmd) (ps : List Cmd) : payloadWord (p :: ps) 0 = p := rfl

@[simp] theorem payloadWord_cons_succ (p : Cmd) (ps : List Cmd) (k : Nat) :
    payloadWord (p :: ps) (k + 1) = payloadWord ps k := rfl

theorem decodeDrawIn_encodeDrawIn (d : DrawIn) : decodeDrawIn (encodeDrawIn d) = d := by
  simp [decodeDrawIn, encodeDrawIn]

theorem encodeDrawIn_decodeDrawIn {ps : List Cmd} (hlen : ps.length = 5) : encodeDrawIn (decodeDrawIn ps) = ps := by
  match ps, hlen with
  | [p1, p2, p3, p4, p5], _ => simp [decodeDrawIn, encodeDrawIn]

theorem decodeFragIn_tail_encodeFragment (f : FragIn) : decodeFragIn (encodeFragment f).tail = f := by
  simp [decodeFragIn, encodeFragment]

theorem encodeFragment_decodeFragIn {ps : List Cmd} (hlen : ps.length = 6) :
    encodeFragment (decodeFragIn ps) = 0x00000001#32 :: ps := by
  match ps, hlen with
  | [p1, p2, p3, p4, p5, p6], _ => simp [decodeFragIn, encodeFragment]

/-! ## BEGIN_DRAW's eight rows as one (R81, R92) -/

/-- The header of BEGIN_DRAW with the fields `mode` and `t`: `t` in bit 5, `mode` in bits 4:3, `op` and the reserved bits
0 (R81). -/
def beginHeader (mode : BitVec 2) (t : Bool) : Cmd := 0#26 ++ BitVec.ofBool t ++ mode ++ 0#3

/-- A claim about BEGIN_DRAW for all values of its two header fields is eight claims. -/
theorem forall_beginFields {p : BitVec 2 → Bool → Prop}
    (h : ∀ t, p 0#2 t ∧ p 1#2 t ∧ p 2#2 t ∧ p 3#2 t) (mode : BitVec 2) (t : Bool) : p mode t := by
  obtain ⟨h0, h1, h2, h3⟩ := h t
  have hmode : mode = 0#2 ∨ mode = 1#2 ∨ mode = 2#2 ∨ mode = 3#2 := by bv_omega
  rcases hmode with rfl | rfl | rfl | rfl <;> assumption

theorem encode_beginRow (mode : BitVec 2) (t : Bool) (d : DrawIn) :
    encode (beginRow mode t d) = beginHeader mode t :: encodeDrawIn d := by
  induction mode, t using forall_beginFields with
  | h t => cases t <;> exact ⟨rfl, rfl, rfl, rfl⟩

theorem decodePacket_beginHeader (mode : BitVec 2) (t : Bool) (ps : List Cmd) :
    decodePacket (beginHeader mode t) ps = beginRow mode t (decodeDrawIn ps) := by
  induction mode, t using forall_beginFields with
  | h t => cases t <;> exact ⟨rfl, rfl, rfl, rfl⟩

theorem packetLen_beginHeader (mode : BitVec 2) (t : Bool) : packetLen (beginHeader mode t) = 6 := by
  induction mode, t using forall_beginFields with
  | h t => cases t <;> exact ⟨rfl, rfl, rfl, rfl⟩

theorem wellFormed_beginRow (mode : BitVec 2) (t : Bool) (d : DrawIn) :
    (beginRow mode t d).wellFormed = true ∧ (beginRow mode t d).isPathRow = false := by
  induction mode, t using forall_beginFields with
  | h t => cases t <;> exact ⟨⟨rfl, rfl⟩, ⟨rfl, rfl⟩, ⟨rfl, rfl⟩, ⟨rfl, rfl⟩⟩

theorem exists_beginRow {i : Instr} (h : isBegin i = true) : ∃ mode t d, i = beginRow mode t d := by
  cases i with
  | beginShade0 d => exact ⟨0#2, false, d, rfl⟩
  | beginShade1 d => exact ⟨1#2, false, d, rfl⟩
  | beginShade2 d => exact ⟨2#2, false, d, rfl⟩
  | beginBadU d => exact ⟨3#2, false, d, rfl⟩
  | beginTex4 d => exact ⟨0#2, true, d, rfl⟩
  | beginTex8 d => exact ⟨1#2, true, d, rfl⟩
  | beginTex15 d => exact ⟨2#2, true, d, rfl⟩
  | beginBadT d => exact ⟨3#2, true, d, rfl⟩
  | _ => cases h

/-- Settles O6: the path of each `ctrl` value is the table itself; the header of a row is `beginHeader`. -/
theorem ctrlSelectsPath : Obligations.CtrlSelectsPath := by
  refine ⟨rfl, rfl, rfl, rfl, rfl, rfl, rfl, rfl, fun mode t d => ?_⟩
  rw [encode_beginRow]
  rfl

/-! ## The exact rows and the ILLEGAL row (R81, R93, R94) -/

/-- R81's reserved bits as bounds on the header: below 64 for BEGIN_DRAW, below 8 for every other `op`. -/
theorem reservedBitSet_eq_false_iff (h : Cmd) :
    reservedBitSet h = false ↔ h.toNat < 8 ∨ h.toNat % 8 = 0 ∧ h.toNat < 64 := by
  have hlt := h.isLt
  have hop : h.extractLsb' 0 3 = 0#3 ↔ h.toNat % 8 = 0 := by
    simp [← BitVec.toNat_inj, BitVec.extractLsb'_toNat]
  have hbegin : h.extractLsb' 6 26 = 0#26 ↔ h.toNat < 64 := by
    rw [← BitVec.toNat_inj, BitVec.extractLsb'_toNat, BitVec.toNat_ofNat, Nat.shiftRight_eq_div_pow]
    omega
  have hother : h.extractLsb' 3 29 = 0#29 ↔ h.toNat < 8 := by
    rw [← BitVec.toNat_inj, BitVec.extractLsb'_toNat, BitVec.toNat_ofNat, Nat.shiftRight_eq_div_pow]
    omega
  unfold reservedBitSet
  split
  next hzero =>
    rw [hop] at hzero
    rw [bne_eq_false_iff_eq, hbegin]
    omega
  next hnonzero =>
    rw [hop] at hnonzero
    rw [bne_eq_false_iff_eq, hother]
    omega

/-- Exact headers are those with no reserved bit set (R81, R94). -/
theorem mem_exactHeaders_iff (h : Cmd) : h ∈ exactHeaders ↔ reservedBitSet h = false := by
  rw [reservedBitSet_eq_false_iff]
  simp only [exactHeaders, List.mem_cons, List.not_mem_nil, or_false, ← BitVec.toNat_inj, BitVec.toNat_ofNat]
  omega

/-- The exact headers by payload: BEGIN_DRAW's with any `mode` and `t`, those of FRAGMENT, VRAM_WRITE and VRAM_READ, and
the four that are a packet alone (R82). -/
theorem exactHeader_cases {h : Cmd} (hh : h ∈ exactHeaders) :
    (∃ mode t, h = beginHeader mode t) ∨ h = 0x01#32 ∨ h = 0x04#32 ∨ h = 0x05#32 ∨
      (h = 0x02#32 ∨ h = 0x03#32 ∨ h = 0x06#32 ∨ h = 0x07#32) := by
  simp only [exactHeaders, List.mem_cons, List.not_mem_nil, or_false] at hh
  rcases hh with rfl | rfl | rfl | rfl | rfl | rfl | rfl | rfl | hh
  · exact .inl ⟨0#2, false, rfl⟩
  · exact .inl ⟨1#2, false, rfl⟩
  · exact .inl ⟨2#2, false, rfl⟩
  · exact .inl ⟨3#2, false, rfl⟩
  · exact .inl ⟨0#2, true, rfl⟩
  · exact .inl ⟨1#2, true, rfl⟩
  · exact .inl ⟨2#2, true, rfl⟩
  · exact .inl ⟨3#2, true, rfl⟩
  · tauto

theorem decodePacket_of_not_mem {h : Cmd} (hh : h ∉ exactHeaders) (ps : List Cmd) : decodePacket h ps = .illegal h ps := by
  simp only [exactHeaders, List.mem_cons, List.not_mem_nil, or_false, not_or] at hh
  simp [decodePacket, hh]

/-- A whole packet encodes to its own words and reads as a well-formed command (R83, R94, R96). -/
theorem decodePacket_spec {h : Cmd} {ps : List Cmd} (hlen : ps.length + 1 = packetLen h) :
    encode (decodePacket h ps) = h :: ps ∧ (decodePacket h ps).wellFormed = true ∧
      (decodePacket h ps).isPathRow = false := by
  by_cases hh : h ∈ exactHeaders
  · rcases exactHeader_cases hh with ⟨mode, t, rfl⟩ | rfl | rfl | rfl | hbare
    · rw [packetLen_beginHeader] at hlen
      rw [decodePacket_beginHeader, encode_beginRow, encodeDrawIn_decodeDrawIn (by omega)]
      exact ⟨rfl, wellFormed_beginRow mode t _⟩
    · exact ⟨encodeFragment_decodeFragIn (Nat.succ.inj hlen), rfl, rfl⟩
    · obtain ⟨p1, p2, rfl⟩ := List.length_eq_two.1 (Nat.succ.inj hlen)
      exact ⟨by simp [decodePacket, encode], rfl, rfl⟩
    · obtain ⟨p1, rfl⟩ := List.length_eq_one_iff.1 (Nat.succ.inj hlen)
      exact ⟨by simp [decodePacket, encode], rfl, rfl⟩
    · rcases hbare with rfl | rfl | rfl | rfl <;> obtain rfl := List.length_eq_zero_iff.1 (Nat.succ.inj hlen) <;>
        exact ⟨rfl, rfl, rfl⟩
  · have hres : reservedBitSet h = true := by simpa [mem_exactHeaders_iff] using hh
    rw [decodePacket_of_not_mem hh]
    exact ⟨rfl, by simp [Instr.wellFormed, hres, hlen], rfl⟩

/-- Settles O2: what decodes is a whole packet, and `decodePacket_spec` is about every whole packet. -/
theorem encodeInvertsDecode : Obligations.EncodeInvertsDecode := by
  intro ws rest i hd
  obtain ⟨h, ps, rfl, hlen, rfl⟩ := packet_of_decode hd
  obtain ⟨henc, hwf, hpath⟩ := decodePacket_spec hlen
  exact ⟨by rw [henc], hwf, hpath⟩

/-- An exact header is never read as ILLEGAL: that row would be well-formed, and so have a reserved bit set. -/
theorem decodePacket_ne_illegal {h : Cmd} {ps : List Cmd} (hh : h ∈ exactHeaders) (hlen : ps.length + 1 = packetLen h)
    (h' : Cmd) (ps' : List Cmd) : decodePacket h ps ≠ .illegal h' ps' := by
  intro heq
  obtain ⟨henc, hwf, -⟩ := decodePacket_spec hlen
  rw [heq] at henc hwf
  obtain ⟨rfl, rfl⟩ := List.cons.inj henc
  simp [Instr.wellFormed, (mem_exactHeaders_iff h').1 hh] at hwf

/-- Settles O4: an exact header's packet is its own row's by `decodePacket_spec`, any other is ILLEGAL's. -/
theorem illegalRowTakesReservedBits : Obligations.IllegalRowTakesReservedBits := by
  refine ⟨by decide, fun h ps hh hlen => ?_, fun h ps rest hh hlen => ?_, mem_exactHeaders_iff⟩
  · obtain ⟨henc, -, -⟩ := decodePacket_spec hlen
    have hdec := decode_packet_append hlen []
    rw [List.append_nil] at hdec
    exact ⟨decodePacket h ps, hdec, by rw [henc]; rfl, decodePacket_ne_illegal hh hlen⟩
  · rw [decode_packet_append hlen, decodePacket_of_not_mem hh]

/-! ## Reading an encoded instruction back (R81 to R87, R92) -/

theorem decode_encode_beginRow (mode : BitVec 2) (t : Bool) (d : DrawIn) (rest : List Cmd) :
    decode (encode (beginRow mode t d) ++ rest) = .ok (beginRow mode t d, rest) := by
  have hlen : (encodeDrawIn d).length + 1 = packetLen (beginHeader mode t) := (packetLen_beginHeader mode t).symm
  rw [encode_beginRow, decode_packet_append hlen, decodePacket_beginHeader, decodeDrawIn_encodeDrawIn]

theorem decode_encodeFragment (f : FragIn) (rest : List Cmd) :
    decode (encodeFragment f ++ rest) = .ok (.fragment f, rest) := by
  have hread : decode (encodeFragment f ++ rest) = .ok (.fragment (decodeFragIn (encodeFragment f).tail), rest) :=
    decode_packet_append (h := 0x00000001#32) (ps := (encodeFragment f).tail) rfl rest
  rw [hread, decodeFragIn_tail_encodeFragment]

@[simp] theorem decodeUnder_none (ws : List Cmd) : decodeUnder none ws = decode ws := rfl

/-- A FRAGMENT packet under a `ctrl` field names the row of that path (R92, R224). -/
theorem decodeUnder_some_encodeFragment (c : BitVec 3) (f : FragIn) (rest : List Cmd) :
    decodeUnder (some c) (encodeFragment f ++ rest) = .ok ((decodePath c).row f, rest) := by
  simp [decodeUnder, decode_encodeFragment]

/-- FRAGMENT's rows: FRAGMENT itself, which has no `ctrl` field, or the row of its own `ctrl` field (R92). -/
theorem fragmentRow_ctrl {f : FragIn} {i : Instr} (hi : i ∈ fragmentRows f) :
    i = .fragment f ∨ ∃ c, encodeCtrl i = some c ∧ encode i = encodeFragment f ∧ i = (decodePath c).row f := by
  simp only [fragmentRows, List.mem_cons, List.not_mem_nil, or_false] at hi
  rcases hi with rfl | hi
  · exact .inl rfl
  · right
    rcases hi with rfl | rfl | rfl | rfl | rfl | rfl | rfl | rfl <;> exact ⟨_, rfl, rfl, rfl⟩

/-- The `ctrl` field and the packet of FRAGMENT and each PATH row name that row. -/
theorem decodeUnder_encode_fragmentRow {f : FragIn} {i : Instr} (hi : i ∈ fragmentRows f) (rest : List Cmd) :
    decodeUnder (encodeCtrl i) (encode i ++ rest) = .ok (i, rest) := by
  rcases fragmentRow_ctrl hi with rfl | ⟨c, hctrl, henc, hrow⟩
  · exact decode_encodeFragment f rest
  · rw [hctrl, henc, decodeUnder_some_encodeFragment, ← hrow]

theorem decode_encode_vramWrite (x y w rsv : Word) (rest : List Cmd) :
    decode (encode (.vramWrite x y w rsv) ++ rest) = .ok (.vramWrite x y w rsv, rest) := by
  have hread := decode_packet_append (h := 0x00000004#32) (ps := [pair y x, pair rsv w]) rfl rest
  simpa [decodePacket, encode] using hread

theorem decode_encode_vramRead (x y : Word) (rest : List Cmd) :
    decode (encode (.vramRead x y) ++ rest) = .ok (.vramRead x y, rest) := by
  have hread := decode_packet_append (h := 0x00000005#32) (ps := [pair y x]) rfl rest
  simpa [decodePacket, encode] using hread

theorem decode_encode_illegal {h : Cmd} {ps : List Cmd} (hwf : (Instr.illegal h ps).wellFormed = true) (rest : List Cmd) :
    decode (encode (.illegal h ps) ++ rest) = .ok (.illegal h ps, rest) := by
  obtain ⟨hres, hlen⟩ : reservedBitSet h = true ∧ ps.length + 1 = packetLen h := by simpa [Instr.wellFormed] using hwf
  have hh : h ∉ exactHeaders := by simp [mem_exactHeaders_iff, hres]
  show decode (h :: ps ++ rest) = _
  rw [decode_packet_append hlen, decodePacket_of_not_mem hh]

/-- Settles O1: each group of rows is read back by its own lemma; the commands without operands by evaluation. -/
theorem decodeReadsEncodedInstruction : Obligations.DecodeReadsEncodedInstruction := by
  intro i rest hwf
  rcases instr_groups i with h | ⟨f, h⟩ | rfl | rfl | ⟨x, y, w, rsv, rfl⟩ | ⟨x, y, rfl⟩ | rfl | rfl | ⟨h, ps, rfl⟩
  · obtain ⟨mode, t, d, rfl⟩ := exists_beginRow h
    have hctrl : encodeCtrl (beginRow mode t d) = none := by
      simpa [Instr.isPathRow] using (wellFormed_beginRow mode t d).2
    rw [hctrl]
    exact decode_encode_beginRow mode t d rest
  · exact decodeUnder_encode_fragmentRow h rest
  · exact decode_packet_append (h := 0x00000002#32) (ps := []) rfl rest
  · exact decode_packet_append (h := 0x00000003#32) (ps := []) rfl rest
  · exact decode_encode_vramWrite x y w rsv rest
  · exact decode_encode_vramRead x y rest
  · exact decode_packet_append (h := 0x00000006#32) (ps := []) rfl rest
  · exact decode_packet_append (h := 0x00000007#32) (ps := []) rfl rest
  · exact decode_encode_illegal hwf rest

/-- A command's own words, with nothing after them, are read back. -/
theorem decode_of_encode_eq {i : Instr} {ws : List Cmd} (hctrl : encodeCtrl i = none) (hwf : i.wellFormed = true)
    (henc : encode i = ws) : decode ws = .ok (i, []) := by
  have hread := decodeReadsEncodedInstruction i [] hwf
  rwa [hctrl, decodeUnder_none, henc, List.append_nil] at hread

/-- Settles O5: the four commands encode to R99's words by evaluation, and so those words are read back. -/
theorem examplePacketsDecode : Obligations.ExamplePacketsDecode :=
  ⟨decode_of_encode_eq rfl rfl rfl, decode_of_encode_eq rfl rfl rfl, decode_of_encode_eq rfl rfl rfl,
    decode_of_encode_eq rfl rfl rfl, rfl, rfl, rfl, rfl⟩

/-! ## The response word (R88, R89, R260) -/

/-- What holds of a response that `i` may answer: status 0 to 3, zeros in 15:4, `tm` from an OK FRAGMENT only, and data
with status OK only. -/
structure ResponseOf (i : Instr) (r : Cmd) : Prop where
  status   : (rspSt r).toNat ≤ 3
  reserved : r.extractLsb' 4 12 = 0#12
  tm       : r.getLsbD 3 = true → isFragment i = true ∧ rspSt r = 0#3
  data     : rspSt r ≠ 0#3 → r.extractLsb' 16 16 = 0#16

theorem code_toNat_le (st : Status) : st.code.toNat ≤ 3 := by
  cases st <;> decide

/-- An OK response carries any data, and a mask bit where a FRAGMENT answers it. -/
theorem responseOf_ok {i : Instr} (w : Word) {tm : Bool} (htm : tm = true → isFragment i = true) :
    ResponseOf i (rspWord w tm .ok) := by
  obtain ⟨hst, hbit, hres, -⟩ := rspWord_fields w tm .ok
  exact ⟨hst ▸ code_toNat_le .ok, hres, fun h => ⟨htm (hbit ▸ h), hst⟩, fun h => absurd hst h⟩

/-- A response that carries a status only. -/
theorem responseOf_rspStatus (i : Instr) (st : Status) : ResponseOf i (rspStatus st) := by
  obtain ⟨hst, hbit, hres, hdata⟩ := rspWord_fields 0#16 false st
  exact ⟨hst ▸ code_toNat_le st, hres, fun h => absurd (hbit.symm.trans h) Bool.false_ne_true, fun _ => hdata⟩

/-- Every next state that an instruction can answer has one response more, and the same stream. -/
theorem Result.responds {i : Instr} {s t : State} (hr : Result i s t) :
    ∃ r, t.responses = s.responses ++ [r] ∧ t.stream = s.stream ∧ ResponseOf i r := by
  cases hr with
  | refused => exact ⟨_, rfl, rfl, rspStatus_protoError ▸ responseOf_rspStatus i .protoError⟩
  | cfgError | failed => exact ⟨_, rfl, rfl, rspStatus_cfgError ▸ responseOf_rspStatus i .cfgError⟩
  | opened | endFailed | endOpened | aborted | wrote =>
    exact ⟨_, rfl, rfl, rspStatus_ok ▸ responseOf_rspStatus i .ok⟩
  | readIdle | readInDraw | status => exact ⟨_, rfl, rfl, responseOf_ok _ (by simp)⟩
  | pixel f p hi =>
    obtain ⟨-, -, hfrag, -⟩ := fragmentRow_group hi
    rcases finishPixel_cases f p s with ⟨-, h'⟩ | ⟨out, tm, -, h'⟩ <;> rw [h']
    · exact ⟨_, rfl, rfl, rspStatus_discarded ▸ responseOf_rspStatus i .discarded⟩
    · exact ⟨_, rfl, rfl, responseOf_ok out fun _ => hfrag⟩

/-- Settles O9: every instruction has a result, and every result responds. -/
theorem everyCommandAnswersOneResponse : Obligations.EveryCommandAnswersOneResponse := by
  intro i s
  obtain ⟨t, hexec, hr⟩ := exec_result i s
  obtain ⟨r, hrsp, hstream, hstatus, hreserved, htm, hdata⟩ := hr.responds
  exact ⟨t, r, hexec, hrsp, hstream, hstatus, hreserved, htm, hdata⟩

/-! ## The fields of a packed colour (R91, R120) -/

section
variable (m : Bool) (b g r : BitVec 5)

theorem middle_of_append {n : Nat} (x : BitVec n) : (x ++ b ++ g).extractLsb' 5 5 = b :=
  (BitVec.extractLsb'_append_eq_of_le le_rfl).trans BitVec.extractLsb'_append_eq_right

theorem packed_red : (BitVec.ofBool m ++ b ++ g ++ r).extractLsb' 0 5 = r := BitVec.extractLsb'_append_eq_right

theorem packed_green : (BitVec.ofBool m ++ b ++ g ++ r).extractLsb' 5 5 = g := middle_of_append g r _

theorem packed_blue : (BitVec.ofBool m ++ b ++ g ++ r).extractLsb' 10 5 = b := by
  rw [BitVec.extractLsb'_append_eq_of_le (by decide)]
  exact middle_of_append b g _

theorem packed_mask : (BitVec.ofBool m ++ b ++ g ++ r).getLsbD 15 = m := by
  simp only [BitVec.getLsbD_append]
  simp

end

/-- Settles O42: each field is read from the bits it was packed into. -/
theorem decodeReadsFields : Obligations.DecodeReadsFields := by
  intro m b g r
  refine ⟨?_, packed_mask m b g r⟩
  rw [decodeRgb, packed_red, packed_green, packed_blue]

end Sys2Proof.Machine

/-! SUPPORT. Proofs for the family 40_pixel_codec.md: DECODE's channel is the correctly rounded `k / 31` (R120, R122),
ENCODE's fields (R123, R127), and `q` as a monotone function of the clamped channel's magnitude bits, from which its
thresholds (R124), the round trip (R125) and the channel-range law (R126) follow. -/

namespace Sys2Proof.Machine

/-! ## DECODE's channel (R120, R122) -/

/-- The operands of DECODE's division are exact: `k` and 31 in units of `2 ^ -149`. -/
theorem floatVal_channel (k : BitVec 5) : floatVal (f32OfNat k.toNat) = .fin false (k.toNat * 2 ^ 149) := by
  revert k
  decide +kernel

theorem floatVal_f32ThirtyOne : floatVal f32ThirtyOne = .fin false (31 * 2 ^ 149) := by decide +kernel

/-- DECODE's channel is the exact quotient, rounded once (R120). -/
theorem decodeChannel_eq_roundF32 (k : BitVec 5) :
    decodeChannel k = roundF32 false (k.toNat * 2 ^ 149) (31 * 2 ^ 149) := by
  rw [decodeChannel, fdiv32, floatVal_channel, floatVal_f32ThirtyOne]
  exact if_neg (by norm_num)

theorem decodeChannel_eq_table (k : BitVec 5) : decodeChannel k = decodeTable.getD k.toNat 0#32 := by
  revert k
  decide +kernel

theorem decodeChannel_finite (k : BitVec 5) : isFinite32 (decodeChannel k) = true := by
  rw [decodeChannel_eq_table]
  revert k
  decide

/-- Settles O41: the table by evaluation; `roundF32` gives a nearest value to the quotient, whose units cancel. -/
theorem decodeChannelTable : Obligations.DecodeChannelTable := by
  intro k
  refine ⟨decodeChannel_eq_table k, fun y _ => ?_⟩
  have hfin := decodeChannel_finite k
  have hquot : (k.toNat : ℚ) / 31 = signFactor false * ((k.toNat * 2 ^ 149 : Nat) / (31 * 2 ^ 149 : Nat)) := by
    rw [signFactor_false, one_mul, Nat.cast_mul, Nat.cast_mul, mul_div_mul_right _ _ (by positivity), Nat.cast_ofNat]
  rw [decodeChannel_eq_roundF32] at hfin ⊢
  rw [hquot]
  exact (roundF32_nearest (by norm_num) hfin y).1

/-! ## ENCODE's fields (R123, R127) -/

/-- Settles O43: each field is read from the bits its channel was packed into. -/
theorem encodeFieldsAreIndependent : Obligations.EncodeFieldsAreIndependent := by
  intro i c m
  exact ⟨packed_red m _ _ _, packed_green m _ _ _, packed_blue m _ _ _, packed_mask m _ _ _⟩

theorem encodeChannel_of_not_nan {c : F32} (hc : isNaN c = false) (pick : BitVec 5) :
    encodeChannel pick c = quantize c := by
  simp [encodeChannel, hc]

/-! ## Order of magnitude bits (R10) -/

/-- Magnitude bits are ordered as their values: `m` and `m + 1` are neighbouring multiples of one unit. -/
theorem magnitudeVal_strictMono : StrictMono magnitudeVal := by
  refine strictMono_nat_of_lt_succ fun m => ?_
  obtain ⟨e, q, hm, hq, hnormal⟩ : ∃ e q, m = e * 2 ^ 23 + q ∧ q < 2 ^ 24 ∧ (e = 0 ∨ 2 ^ 23 ≤ q) := by
    rcases Nat.lt_or_ge m (2 ^ 23) with hsub | hnorm
    · exact ⟨0, m, by omega, by omega, .inl rfl⟩
    · exact ⟨m / 2 ^ 23 - 1, 2 ^ 23 + m % 2 ^ 23, by omega, by omega, .inr (by omega)⟩
  rw [hm, add_assoc, magnitudeVal_unit hq.le hnormal, magnitudeVal_unit hq (by omega)]
  exact Nat.mul_lt_mul_of_pos_right (Nat.lt_succ_self q) (by positivity)

theorem magnitudeVal_eq_zero_iff (m : Nat) : magnitudeVal m = 0 ↔ m = 0 :=
  magnitudeVal_strictMono.injective.eq_iff' rfl

theorem magnitudeVal_f32One : magnitudeVal 0x3F800000 = 2 ^ 149 := by decide +kernel

theorem f32Key_eq (x : F32) : f32Key x = if f32Sign x then -(magnitude x : Int) else (magnitude x : Int) := rfl

theorem real32_nonneg_iff (x : F32) : 0 ≤ real32 x ↔ (f32Sign x = true → magnitude x = 0) := by
  rw [real32_eq]
  cases f32Sign x
  · simp only [Bool.false_eq_true, if_false, IsEmpty.forall_iff, iff_true]
    positivity
  · rw [if_pos rfl, neg_nonneg, div_le_iff₀ (by positivity), zero_mul, Nat.cast_nonpos, magnitudeVal_eq_zero_iff]
    simp

theorem real32_of_nonneg {x : F32} (hx : 0 ≤ real32 x) : real32 x = (magnitudeVal (magnitude x) : ℚ) / 2 ^ 149 := by
  rw [real32_nonneg_iff] at hx
  rw [real32_eq]
  split
  next hs => simp [hx hs, magnitudeVal]
  next => rfl

theorem ftrunc_of_nonneg {x : F32} (hf : isFinite32 x = true) (hx : 0 ≤ real32 x) :
    ftrunc x = (magnitudeVal (magnitude x) / 2 ^ 149 : Nat) := by
  rw [real32_nonneg_iff] at hx
  rw [ftrunc, floatVal_finite hf]
  cases hs : f32Sign x
  · rfl
  · simp [hx hs, magnitudeVal]

/-- On values that are not negative, rounding toward zero is the floor (R10). -/
theorem ftrunc_eq_floor {x : F32} (hf : isFinite32 x = true) (hx : 0 ≤ real32 x) : ftrunc x = ⌊real32 x⌋ := by
  rw [ftrunc_of_nonneg hf hx, real32_of_nonneg hx]
  exact_mod_cast (Rat.floor_natCast_div_natCast (magnitudeVal (magnitude x)) (2 ^ 149)).symm

/-! ## The clamp to [0, 1] (R123) -/

/-- The values from 0 to 1 by their bits: `-0.0` is one of them. -/
structure UnitRange (x : F32) : Prop where
  nonneg : f32Sign x = true → magnitude x = 0
  le_one : magnitude x ≤ 0x3F800000

theorem unitRange_of_real32 {x : F32} (h0 : 0 ≤ real32 x) (h1 : real32 x ≤ 1) : UnitRange x := by
  rw [real32_nonneg_iff] at h0
  refine ⟨h0, ?_⟩
  cases hs : f32Sign x
  · rw [real32_eq, hs, if_neg Bool.false_ne_true, div_le_one (by positivity)] at h1
    rw [← magnitudeVal_strictMono.le_iff_le, magnitudeVal_f32One]
    exact_mod_cast h1
  · simp [h0 hs]

theorem UnitRange.key {x : F32} (h : UnitRange x) : f32Key x = magnitude x := by
  rw [f32Key_eq]
  split
  next hs => simp [h.nonneg hs]
  next => rfl

theorem UnitRange.not_nan {x : F32} (h : UnitRange x) : isNaN x = false := by
  have := h.le_one
  rw [Bool.eq_false_iff, Ne, isNaN_iff]
  omega

theorem UnitRange.finite {x : F32} (h : UnitRange x) : isFinite32 x = true := by
  have := h.le_one
  rw [isFinite32_iff]
  omega

theorem UnitRange.flt32_eq {x t : F32} (hx : UnitRange x) (ht : UnitRange t) :
    flt32 x t = decide (magnitude x < magnitude t) := by
  simp [flt32, hx.not_nan, ht.not_nan, hx.key, ht.key]

theorem unitRange_zero : UnitRange 0x00000000#32 := ⟨by decide, by decide⟩

theorem unitRange_f32One : UnitRange f32One := ⟨by decide, by decide⟩

/-- A channel that is not a NaN, infinite ones included, is clamped into the range (R123). -/
theorem unitRange_clamp {c : F32} (hc : isNaN c = false) : UnitRange (fclamp32 c 0x00000000#32 f32One) := by
  have hkey0 : f32Key 0x00000000#32 = 0 := by decide
  have hkey1 : f32Key f32One = 0x3F800000 := by decide
  rw [fclamp32]
  split
  next => exact unitRange_zero
  next hge0 =>
    split
    next => exact unitRange_f32One
    next hle1 =>
      simp only [flt32, hc, unitRange_zero.not_nan, unitRange_f32One.not_nan, hkey0, hkey1, Bool.not_false,
        Bool.true_and, decide_eq_true_eq, not_lt] at hge0 hle1
      rw [f32Key_eq] at hge0 hle1
      cases hs : f32Sign c <;> rw [hs] at hge0 hle1
      · exact ⟨by simp [hs], by simpa using hle1⟩
      · have hzero : magnitude c = 0 := by simpa using hge0
        exact ⟨fun _ => hzero, by omega⟩

/-- A channel in the range is its own clamp. -/
theorem UnitRange.clamp_eq {c : F32} (h : UnitRange c) : fclamp32 c 0x00000000#32 f32One = c := by
  have hone : magnitude f32One = 0x3F800000 := by decide
  have := h.le_one
  rw [fclamp32, h.flt32_eq unitRange_zero, unitRange_f32One.flt32_eq h, if_neg (by simp [magnitude]),
    if_neg (by simp; omega)]

/-! ## `q` by magnitude bits (R123) -/

/-- The magnitude bits of `fmul32(x, S)`, of the magnitude bits of `x`. -/
def scaledMagnitude (m : Nat) : Nat :=
  roundMagnitude (magnitudeVal m * magnitudeVal (magnitude encScale)) (2 ^ 149 * 2 ^ 149)

/-- `trunc(fmul32(x, S))`, of the magnitude bits of `x`. -/
def scaledFloor (m : Nat) : Nat := magnitudeVal (scaledMagnitude m) / 2 ^ 149

theorem scaledMagnitude_mono : Monotone scaledMagnitude := fun _ _ h =>
  roundMagnitude_mono (by positivity) (Nat.mul_le_mul_right _ (magnitudeVal_strictMono.monotone h))

theorem scaledFloor_mono : Monotone scaledFloor := fun _ _ h =>
  Nat.div_le_div_right (magnitudeVal_strictMono.monotone (scaledMagnitude_mono h))

theorem scaledMagnitude_zero : scaledMagnitude 0 = 0 := by decide +kernel

/-- 1.0 is the greatest channel, and encodes to 31 (R123). -/
theorem scaled_f32One : scaledMagnitude 0x3F800000 < 0x7F800000 ∧ scaledFloor 0x3F800000 = 31 := by decide +kernel

theorem UnitRange.scaledFloor_le {x : F32} (h : UnitRange x) : scaledFloor (magnitude x) ≤ 31 :=
  (scaledFloor_mono h.le_one).trans_eq scaled_f32One.2

/-- A channel in the range times `S` is finite and, as it has the sign of the channel, not negative. -/
theorem UnitRange.fmul32_encScale {x : F32} (h : UnitRange x) :
    magnitude (fmul32 x encScale) = scaledMagnitude (magnitude x) ∧ isFinite32 (fmul32 x encScale) = true ∧
      0 ≤ real32 (fmul32 x encScale) := by
  have hlt := (scaledMagnitude_mono h.le_one).trans_lt scaled_f32One.1
  have hprod : fmul32 x encScale = signed (f32Sign x) (scaledMagnitude (magnitude x)) := by
    have hS : f32Sign encScale = false := by decide
    rw [fmul32_finite h.finite (by decide), hS, Bool.xor_false]
    rfl
  obtain ⟨hmag, hsign⟩ := signed_fields (f32Sign x) (hlt.trans (by norm_num))
  rw [hprod]
  refine ⟨hmag, signed_finite _ hlt, (real32_nonneg_iff _).2 fun hneg => ?_⟩
  rw [hsign] at hneg
  rw [hmag, h.nonneg hneg, scaledMagnitude_zero]

theorem UnitRange.ftrunc_scaled {x : F32} (h : UnitRange x) :
    ftrunc (fmul32 x encScale) = scaledFloor (magnitude x) := by
  obtain ⟨hmag, hfin, hpos⟩ := h.fmul32_encScale
  rw [ftrunc_of_nonneg hfin hpos, hmag]
  rfl

theorem quantize_toNat {c : F32} (hc : isNaN c = false) :
    (quantize c).toNat = scaledFloor (magnitude (fclamp32 c 0x00000000#32 f32One)) := by
  have hunit := unitRange_clamp hc
  have hle := hunit.scaledFloor_le
  rw [quantize, hunit.ftrunc_scaled, BitVec.ofInt_natCast, BitVec.toNat_ofNat, Nat.mod_eq_of_lt (by omega)]

/-! ## The thresholds (R124) -/

/-- Threshold `T_(k+1)` is the least channel that encodes above `k`. -/
theorem scaledFloor_threshold {k : Nat} (hk : k < 31) :
    let t := encodeThresholds.getD k 0#32
    UnitRange t ∧ scaledFloor (magnitude t - 1) ≤ k ∧ k < scaledFloor (magnitude t) := by
  have htable : ∀ k < 31, let t := encodeThresholds.getD k 0#32
      (f32Sign t = false ∧ magnitude t ≤ 0x3F800000) ∧
        scaledFloor (magnitude t - 1) ≤ k ∧ k < scaledFloor (magnitude t) := by decide +kernel
  obtain ⟨⟨hsign, hle⟩, hbelow, hat⟩ := htable k hk
  exact ⟨⟨fun hneg => absurd (hsign.symm.trans hneg) Bool.false_ne_true, hle⟩, hbelow, hat⟩

/-- A channel in the range reaches `T_(k+1)` exactly when it encodes above `k`. -/
theorem UnitRange.reaches_threshold {x : F32} (h : UnitRange x) {k : Nat} (hk : k < 31) :
    flt32 x (encodeThresholds.getD k 0#32) = false ↔ k < scaledFloor (magnitude x) := by
  obtain ⟨ht, hbelow, hat⟩ := scaledFloor_threshold hk
  rw [h.flt32_eq ht, decide_eq_false_iff_not, not_lt]
  constructor
  · exact fun hle => hat.trans_le (scaledFloor_mono hle)
  · intro hlt
    by_contra hx
    exact absurd (scaledFloor_mono (Nat.le_sub_one_of_lt (not_le.1 hx))) (by omega)

theorem encodeThresholds_eq_map : encodeThresholds = (List.range 31).map (encodeThresholds.getD · 0#32) := by decide

theorem length_filter_range_lt (n q : Nat) : ((List.range n).filter (· < q)).length = min n q := by
  induction n with
  | zero => simp
  | succ n ih =>
    rw [List.range_succ, List.filter_append, List.length_append, ih]
    by_cases h : n < q <;> simp [h] <;> omega

/-- Settles O44: among `k < 31`, those whose threshold is reached are those below `q(c)`, which is at most 31. -/
theorem quantizeCountsThresholds : Obligations.QuantizeCountsThresholds := by
  intro c hc
  have hunit := unitRange_clamp hc
  change _ = (encodeThresholds.filter fun t => !flt32 (fclamp32 c 0x00000000#32 f32One) t).length
  rw [quantize_toNat hc]
  generalize fclamp32 c 0x00000000#32 f32One = x at *
  have hreach : ∀ k ∈ List.range 31,
      (!flt32 x (encodeThresholds.getD k 0#32)) = decide (k < scaledFloor (magnitude x)) := by
    intro k hk
    rw [Bool.eq_iff_iff, Bool.not_eq_true', hunit.reaches_threshold (List.mem_range.1 hk), decide_eq_true_iff]
  rw [encodeThresholds_eq_map, List.filter_map, List.length_map]
  calc scaledFloor (magnitude x)
      = ((List.range 31).filter (· < scaledFloor (magnitude x))).length := by
        rw [length_filter_range_lt, min_eq_right hunit.scaledFloor_le]
    _ = _ := by rw [← List.filter_congr hreach]; rfl

/-! ## The round trip (R125) -/

/-- Every decoded channel is a number, and encodes to the channel it was decoded from. -/
theorem quantize_decodeChannel (k : BitVec 5) : isNaN (decodeChannel k) = false ∧ quantize (decodeChannel k) = k := by
  rw [decodeChannel_eq_table]
  revert k
  decide +kernel

/-- A packed colour is its four fields (R91). -/
theorem packed_fields (w : Word) :
    BitVec.ofBool (maskBit w) ++ w.extractLsb' 10 5 ++ w.extractLsb' 5 5 ++ w.extractLsb' 0 5 = w := by
  have hmask : BitVec.ofBool (maskBit w) = w.extractLsb' 15 1 := by
    ext i hi
    obtain rfl : i = 0 := by omega
    simp [maskBit]
  rw [hmask, BitVec.extractLsb'_append_extractLsb'_eq_extractLsb' (show 15 = 10 + 5 from rfl),
    BitVec.extractLsb'_append_extractLsb'_eq_extractLsb' (show 10 = 5 + 5 from rfl),
    BitVec.extractLsb'_append_extractLsb'_eq_extractLsb' (show 5 = 0 + 5 from rfl)]
  exact BitVec.extractLsb'_eq_self

/-- Settles O45: each channel is encoded back, and the fields are put back together. -/
theorem decodeEncodeRoundTrip : Obligations.DecodeEncodeRoundTrip := by
  intro i w
  have hback : ∀ pick k, encodeChannel pick (decodeChannel k) = k := fun pick k => by
    obtain ⟨hnan, hq⟩ := quantize_decodeChannel k
    rw [encodeChannel_of_not_nan hnan, hq]
  simp only [encodeColour, decodeRgb, hback, packed_fields]

/-! ## The channel-range law (R126) -/

/-- In the range `q(c)` is the floor of the rounded product. -/
theorem UnitRange.quantize_eq_floor {c : F32} (h : UnitRange c) :
    (quantize c).toNat = ⌊real32 (fmul32 c encScale)⌋.toNat := by
  obtain ⟨-, hfin, hpos⟩ := h.fmul32_encScale
  rw [quantize_toNat h.not_nan, h.clamp_eq, ← ftrunc_eq_floor hfin hpos, h.ftrunc_scaled, Int.toNat_natCast]

/-- Settles O46: red is decoded from `q(c)`, which is the floor. -/
theorem channelRangeLaw : Obligations.ChannelRangeLaw := by
  intro i c _ h0 h1
  have hunit := unitRange_of_real32 h0 h1
  change decodeChannel ((encodeColour i ⟨c, c, c⟩ false).extractLsb' 0 5) =
    fdiv32 (f32OfNat ⌊real32 (fmul32 c encScale)⌋.toNat) f32ThirtyOne
  rw [encodeColour, packed_red, encodeChannel_of_not_nan hunit.not_nan, decodeChannel, hunit.quantize_eq_floor]

end Sys2Proof.Machine

/-! SUPPORT. Proofs for the family 41_texel_address.md: the texture page base takes part in no command's effect (R29,
R141), and ADDR's pixel position and row are clamped floors in rational arithmetic (R142, R143, R146). -/

namespace Sys2Proof.Machine

/-! ## The texture page base (R29, R141) -/

/-- The state with another texture page base latched. -/
def State.withTexBase (x y : Word) (s : State) : State := { s with u := { s.u with tpX := x, tpY := y } }

/-- The instruction does the same with another texture page base, and leaves that base as it is. -/
def IgnoresTexBase (x y : Word) (i : Instr) (s : State) : Prop :=
  ∃ t, exec i s = .next t ∧ exec i (s.withTexBase x y) = .next (t.withTexBase x y)

section
variable (x y : Word) (s : State)

theorem finishPixel_withTexBase (f : FragIn) (p : Pixel) :
    finishPixel f p (s.withTexBase x y) = (finishPixel f p s).withTexBase x y := by
  cases p <;> rfl

theorem onPath_withTexBase {path : State → State} (hpath : path (s.withTexBase x y) = (path s).withTexBase x y) :
    onPath path (s.withTexBase x y) = (onPath path s).withTexBase x y := by
  have hds : (s.withTexBase x y).ds = s.ds := rfl
  unfold onPath
  rw [hds]
  cases s.ds with
  | idle | failed => rfl
  | opened => exact hpath

/-- A row that is one path under the fragment prologue ignores the base when its path does. -/
theorem ignoresTexBase_of_onPath {i : Instr} {path : State → State} (hexec : ∀ s, exec i s = .next (onPath path s))
    (hpath : path (s.withTexBase x y) = (path s).withTexBase x y) : IgnoresTexBase x y i s :=
  ⟨_, hexec s, by rw [hexec, onPath_withTexBase x y s hpath]⟩

/-- No path's pixel reads the base: texel and CLUT addresses are made of other operands (R141, R145, R181). -/
theorem pathRow_ignoresTexBase (f : FragIn) (p : Path) : IgnoresTexBase x y (p.row f) s := by
  cases p with
  | shade0 | shade1 | shade2 =>
    exact ignoresTexBase_of_onPath x y s (fun _ => rfl) (finishPixel_withTexBase x y s f (shadePixel s f))
  | tex4 => exact ignoresTexBase_of_onPath x y s (fun _ => rfl) (finishPixel_withTexBase x y s f (tex4Pixel s f))
  | tex8 => exact ignoresTexBase_of_onPath x y s (fun _ => rfl) (finishPixel_withTexBase x y s f (tex8Pixel s f))
  | tex15 => exact ignoresTexBase_of_onPath x y s (fun _ => rfl) (finishPixel_withTexBase x y s f (tex15Pixel s f))
  | invalid3 | invalid7 => exact ignoresTexBase_of_onPath x y s (path := State.configError) (fun _ => rfl) rfl

/-- Enough to show it in each draw state; there the instruction's own case split is decided. -/
theorem ignoresTexBase_of_ds {i : Instr} (h : ∀ ds : DrawState, IgnoresTexBase x y i { s with ds := ds }) :
    IgnoresTexBase x y i s := h s.ds

/-- FRAGMENT runs the row that `ctrl` selects, and the base is no part of `ctrl` (R92, R224). -/
theorem fragment_ignoresTexBase (f : FragIn) : IgnoresTexBase x y (.fragment f) s := by
  refine ignoresTexBase_of_ds x y s fun ds => ?_
  cases ds with
  | idle | failed => exact ⟨_, rfl, rfl⟩
  | opened =>
    obtain ⟨t, hexec, hexec'⟩ := pathRow_ignoresTexBase x y { s with ds := .opened } f (decodePath s.u.ctrl)
    exact ⟨t, (exec_fragment_opened f rfl).trans hexec, (exec_fragment_opened f rfl).trans hexec'⟩

theorem fragmentRow_ignoresTexBase {f : FragIn} {i : Instr} (hi : i ∈ fragmentRows f) : IgnoresTexBase x y i s := by
  simp only [fragmentRows, List.mem_cons, List.not_mem_nil, or_false] at hi
  rcases hi with rfl | rfl | rfl | rfl | rfl | rfl | rfl | rfl | rfl
  · exact fragment_ignoresTexBase x y s f
  exacts [pathRow_ignoresTexBase x y s f .shade0, pathRow_ignoresTexBase x y s f .shade1,
    pathRow_ignoresTexBase x y s f .shade2, pathRow_ignoresTexBase x y s f .invalid3,
    pathRow_ignoresTexBase x y s f .tex4, pathRow_ignoresTexBase x y s f .tex8,
    pathRow_ignoresTexBase x y s f .tex15, pathRow_ignoresTexBase x y s f .invalid7]

/-- The closing of a draw reads the draw state, LIVE and PEND only (R230 to R234). -/
theorem endDraw_ignoresTexBase : IgnoresTexBase x y .endDraw s :=
  ignoresTexBase_of_ds x y s fun ds => by cases ds <;> exact ⟨_, rfl, rfl⟩

theorem abortDraw_ignoresTexBase : IgnoresTexBase x y .abortDraw s :=
  ignoresTexBase_of_ds x y s fun ds => by cases ds <;> exact ⟨_, rfl, rfl⟩

/-- The host port's addresses are its own operands (R235, R237). -/
theorem vramWrite_ignoresTexBase (px py w rsv : Word) : IgnoresTexBase x y (.vramWrite px py w rsv) s := by
  by_cases hrsv : rsv = 0#16
  · subst hrsv
    exact ignoresTexBase_of_ds x y s fun ds => by cases ds <;> exact ⟨_, rfl, rfl⟩
  · exact ⟨s.protocolError, if_neg hrsv, if_neg hrsv⟩

theorem vramRead_ignoresTexBase (px py : Word) : IgnoresTexBase x y (.vramRead px py) s :=
  ignoresTexBase_of_ds x y s fun ds => by cases ds <;> exact ⟨_, rfl, rfl⟩

end

/-- A BEGIN_DRAW of any tag is refused while a draw is open (R241). -/
theorem exec_begin_of_open {i : Instr} {s : State} (hi : isBegin i = true) (hds : s.ds ≠ .idle) :
    exec i s = .next (refusedBy s) := by
  obtain ⟨d, tx, ⟨mode, -, -, hexec⟩ | ⟨-, hexec⟩⟩ := exec_begin_cases s hi
  · obtain ⟨hidle, -⟩ | ⟨-, hrefused⟩ := beginDraw_cases mode tx d s
    · exact absurd hidle hds
    · rw [hexec, hrefused]
  · obtain ⟨hidle, -⟩ | ⟨-, hrefused⟩ := beginFailed_cases tx d s
    · exact absurd hidle hds
    · rw [hexec, hrefused]

/-- Only an accepted BEGIN_DRAW does not ignore the base: it overwrites it (R26). -/
theorem exec_ignoresTexBase (x y : Word) {i : Instr} {s : State} (hn : ¬(isBegin i = true ∧ s.ds = .idle)) :
    IgnoresTexBase x y i s := by
  rcases instr_groups i with hi | ⟨f, hi⟩ | rfl | rfl | ⟨px, py, w, rsv, rfl⟩ | ⟨px, py, rfl⟩ | rfl | rfl | ⟨h, ps, rfl⟩
  · have hds : s.ds ≠ .idle := fun hidle => hn ⟨hi, hidle⟩
    exact ⟨_, exec_begin_of_open hi hds, exec_begin_of_open (s := s.withTexBase x y) hi hds⟩
  · exact fragmentRow_ignoresTexBase x y s hi
  · exact endDraw_ignoresTexBase x y s
  · exact abortDraw_ignoresTexBase x y s
  · exact vramWrite_ignoresTexBase x y s px py w rsv
  · exact vramRead_ignoresTexBase x y s px py
  all_goals exact ⟨_, rfl, rfl⟩

/-- Settles O35: every such instruction ignores the base, and leaves the rest of the uniform as it was (`Result.u_eq`). -/
theorem texturePageBaseHasNoEffect : Obligations.TexturePageBaseHasNoEffect := by
  intro i s x y hn
  obtain ⟨t, hexec, hexec'⟩ := exec_ignoresTexBase x y hn
  obtain ⟨t', hexec'', hr⟩ := exec_result i s
  obtain rfl : t' = t := by simpa [hexec''] using hexec
  refine ⟨t', hexec, hexec'.trans ?_⟩
  rw [State.withTexBase, hr.u_eq hn]

/-! ## Clamped floors (R10, R142, R143) -/

theorem clampInt_eq {lo hi : Int} (h : lo ≤ hi) (x : Int) : clampInt x lo hi = max lo (min x hi) := by
  unfold clampInt
  split_ifs <;> omega

theorem clampRow_toNat (y : Int) : ((clampRow y).toNat : Int) = max 0 (min y 511) := by
  rw [clampRow, clampInt_eq (by norm_num), BitVec.toNat_ofInt]
  omega

/-- `floorScaled` is the floor of the exact rational product (R10). -/
theorem floorScaled_eq_floor (x : F32) (k : Nat) :
    floorScaled (f32Sign x) (magnitudeVal (magnitude x)) k = ⌊real32 x * k⌋ := by
  rw [floorScaled, ← Rat.floor_intCast_div_natCast, real32_eq]
  congr 1
  cases f32Sign x <;> simp only [Bool.false_eq_true, if_true, if_false] <;> push_cast <;> ring

theorem floatVal_posInf : floatVal 0x7F800000#32 = .inf false := by decide

theorem floatVal_negInf : floatVal 0xFF800000#32 = .inf true := by decide

/-! ## The pixel position, its column and its sub-index (R142) -/

theorem pixelPos_finite {n : Nat} {u : F32} (hn : 0 < n) (hf : isFinite32 u = true) (i : Nat) :
    pixelPos i n u = (max 0 (min ⌊real32 u * 1024 * n⌋ (1024 * n - 1))).toNat := by
  rw [pixelPos, floatVal_finite hf]
  dsimp only
  rw [floorScaled_eq_floor, clampInt_eq (by omega)]
  push_cast
  rw [mul_assoc]

theorem pixelPos_posInf (i n : Nat) : pixelPos i n 0x7F800000#32 = 1024 * n - 1 := by
  rw [pixelPos, floatVal_posInf]
  rfl

theorem pixelPos_negInf (i n : Nat) : pixelPos i n 0xFF800000#32 = 0 := by
  rw [pixelPos, floatVal_negInf]
  rfl

/-- Every pixel position, that of a NaN included, is one of the `1024 * N`. -/
theorem pixelPos_lt {n : Nat} (hn : 0 < n) (i : Nat) (u : F32) : pixelPos i n u < 1024 * n := by
  unfold pixelPos
  split
  next => exact Nat.mod_lt _ (by omega)
  next => split <;> omega
  next =>
    rw [clampInt_eq (by omega)]
    omega

/-- A pixel position's quotient by N fits the column. -/
theorem texelCol_toNat {n : Nat} (hn : 0 < n) (i : Nat) (u : F32) : (texelCol i n u).toNat = pixelPos i n u / n := by
  have hlt : pixelPos i n u / n < 1024 := Nat.div_lt_of_lt_mul (by rw [mul_comm]; exact pixelPos_lt hn i u)
  rw [texelCol, BitVec.toNat_ofNat, Nat.mod_eq_of_lt (by omega)]

/-- A pixel position's remainder by N, at most 4, fits the sub-index. -/
theorem texelSub_toNat {n : Nat} (hn : 0 < n) (hn4 : n ≤ 4) (i : Nat) (u : F32) :
    (texelSub i n u).toNat = pixelPos i n u % n := by
  have hlt : pixelPos i n u % n < n := Nat.mod_lt _ hn
  rw [texelSub, BitVec.toNat_ofNat, Nat.mod_eq_of_lt (by omega)]

theorem texelsPerWord_bounds {n : Nat} (h : n ∈ [1, 2, 4]) : 0 < n ∧ n ≤ 4 := by
  simp only [List.mem_cons, List.not_mem_nil, or_false] at h
  omega

/-- The last pixel position is the last texel of the last column. -/
theorem lastPixel_div_mod {n : Nat} (hn : 0 < n) : (1024 * n - 1) / n = 1023 ∧ (1024 * n - 1) % n = n - 1 := by
  have hlast : 1024 * n - 1 = n - 1 + n * 1023 := by omega
  have hlt : n - 1 < n := by omega
  rw [hlast, Nat.add_mul_div_left _ _ hn, Nat.add_mul_mod_self_left, Nat.div_eq_of_lt hlt, Nat.mod_eq_of_lt hlt]
  exact ⟨rfl, rfl⟩

/-- Settles O36: column and sub-index are quotient and remainder of `pixelPos`, which is known in every case. -/
theorem texelColumnIsClampedFloor : Obligations.TexelColumnIsClampedFloor := by
  intro i n u hmem
  obtain ⟨hn, hn4⟩ := texelsPerWord_bounds hmem
  rw [texelCol_toNat hn, texelSub_toNat hn hn4]
  refine ⟨fun hf => ?_, ?_, ?_, Nat.mod_lt _ hn⟩
  · rw [pixelPos_finite hn hf]
    exact ⟨rfl, rfl⟩
  · rintro rfl
    rw [pixelPos_posInf]
    exact lastPixel_div_mod hn
  · rintro rfl
    rw [pixelPos_negInf]
    exact ⟨Nat.zero_div n, Nat.zero_mod n⟩

/-! ## The row (R143) -/

theorem texelRow_finite {v : F32} (hf : isFinite32 v = true) (i : Nat) : texelRow i v = clampRow ⌊real32 v * 512⌋ := by
  rw [texelRow, floatVal_finite hf]
  exact congrArg clampRow (floorScaled_eq_floor v 512)

/-- Settles O37: the row by the class of `v`. -/
theorem texelRowIsClampedFloor : Obligations.TexelRowIsClampedFloor := by
  intro i v
  refine ⟨fun hf => ?_, ?_, ?_⟩
  · rw [texelRow_finite hf, clampRow_toNat]
  · rintro rfl
    rw [texelRow, floatVal_posInf]
    rfl
  · rintro rfl
    rw [texelRow, floatVal_negInf]
    rfl

/-! ## The source's formula (R146) -/

/-- Inside [0, 1) the clamp of R142 has no effect. -/
theorem pixelPos_of_unit {n : Nat} {u : F32} (hn : 0 < n) (hf : isFinite32 u = true) (h0 : 0 ≤ real32 u)
    (h1 : real32 u < 1) (i : Nat) : (pixelPos i n u : Int) = ⌊real32 u * 1024 * n⌋ := by
  have hnonneg : 0 ≤ ⌊real32 u * 1024 * n⌋ := Int.floor_nonneg.2 (by positivity)
  have hlt : ⌊real32 u * 1024 * n⌋ < 1024 * n := by
    have hpos : (0 : ℚ) < 1024 * n := by positivity
    rw [Int.floor_lt, mul_assoc]
    push_cast
    exact mul_lt_of_lt_one_left hpos h1
  rw [pixelPos_finite hn hf, min_eq_left (by omega), max_eq_right hnonneg, Int.toNat_of_nonneg hnonneg]

/-- The remainder of `⌊q * n⌋` by `n` is the floor of the fractional part, scaled. -/
theorem floor_mul_emod (q : ℚ) {n : Nat} (hn : 0 < n) : ⌊q * n⌋ % n = ⌊Int.fract q * n⌋ := by
  calc ⌊q * n⌋ % n = ⌊q * n⌋ - n * (⌊q * n⌋ / n) := Int.emod_def _ _
    _ = ⌊q * n⌋ - (n * ⌊q⌋ : Int) := by rw [Int.mul_natCast_floor_div_cancel hn.ne']
    _ = ⌊q * n - ((n * ⌊q⌋ : Int) : ℚ)⌋ := (Int.floor_sub_intCast _ _).symm
    _ = ⌊Int.fract q * n⌋ := by
      rw [Int.fract]
      push_cast
      ring_nf

/-- Settles O38: quotient and remainder by N of `⌊u * 1024 * N⌋`. -/
theorem texelAddressAgreesWithSource : Obligations.TexelAddressAgreesWithSource := by
  intro i n u hmem hf h0 h1
  obtain ⟨hn, hn4⟩ := texelsPerWord_bounds hmem
  rw [texelCol_toNat hn, texelSub_toNat hn hn4, Int.natCast_div, Int.natCast_emod, pixelPos_of_unit hn hf h0 h1]
  exact ⟨Int.mul_natCast_floor_div_cancel hn.ne' _, floor_mul_emod _ hn⟩

end Sys2Proof.Machine

/-! SUPPORT. Proofs for the family 42_mode_dispatch.md: which path an un-textured draw's FRAGMENT runs and what it reads
(R161, R166, R207), and the extraction of an index from a texel word (R163, R164). -/

namespace Sys2Proof.Machine

/-! ## Sub-word indices (R163, R164) -/

/-- A shift and a mask of `n` ones read `n` bits. -/
theorem toNat_ushiftRight_and_mask {mask : Word} {n : Nat} (hmask : mask.toNat = 2 ^ n - 1) (t : Word) (k : Nat) :
    ((t >>> k) &&& mask).toNat = (t.extractLsb' k n).toNat := by
  rw [BitVec.toNat_and, hmask, Nat.and_two_pow_sub_one_eq_mod, BitVec.toNat_ushiftRight, BitVec.extractLsb'_toNat]

theorem extract4_eq_extractLsb' (t : Word) (sub : BitVec 2) :
    extract4 t sub = (t.extractLsb' (4 * sub.toNat) 4).toNat := by
  rw [extract4, toNat_ushiftRight_and_mask (n := 4) rfl, mul_comm]

theorem extract8_eq_extractLsb' (t : Word) (sub : BitVec 2) :
    extract8 t sub = (t.extractLsb' (8 * sub.toNat) 8).toNat := by
  rw [extract8, toNat_ushiftRight_and_mask (n := 8) rfl, mul_comm]

/-- Settles O39: the two extractions for every word, and the source's examples by evaluation. -/
theorem subWordIndexExtraction : Obligations.SubWordIndexExtraction :=
  ⟨extract4_eq_extractLsb', fun t sub _ => extract8_eq_extractLsb' t sub, by decide⟩

/-! ## The un-textured path (R161, R166, R207) -/

/-- `ctrl` of an un-textured draw with a valid mode selects one of the three SHADE rows, and each is a FRAG.SHADE. -/
theorem exec_pathRow_untextured {u : Uniform} (htex : u.textured = false) (hmode : u.mode ≠ 3#2) (f : FragIn)
    (s : State) :
    exec ((decodePath u.ctrl).row f) s = .next (onPath (fun s => finishPixel f (shadePixel s f) s) s) := by
  have hpath : ∀ mode : BitVec 2, mode ≠ 3#2 →
      decodePath (BitVec.ofBool false ++ mode) ∈ [Path.shade0, .shade1, .shade2] := by decide
  have hmem := hpath u.mode hmode
  rw [Uniform.ctrl, htex]
  generalize decodePath (BitVec.ofBool false ++ u.mode) = p at hmem ⊢
  simp only [List.mem_cons, List.not_mem_nil, or_false] at hmem
  rcases hmem with rfl | rfl | rfl <;> rfl

/-- FRAGMENT in an OPEN un-textured draw writes the vertex colour: `shadePixel` reads no VRAM and no `U`. -/
theorem exec_fragment_untextured {s : State} (hds : s.ds = .opened) (htex : s.u.textured = false)
    (hmode : s.u.mode ≠ 3#2) (f : FragIn) :
    exec (.fragment f) s = .next (finishPixel f (shadePixel s f) s) := by
  rw [exec_fragment_opened f hds, exec_pathRow_untextured htex hmode, onPath_opened _ hds]

/-- Settles O34: both runs are the SHADE path's, which carries VRAM and `U` along and reads neither. -/
theorem shadeReadsNoVramAndNoUniform : Obligations.ShadeReadsNoVramAndNoUniform := by
  intro f s m v x y hds htex hmode htex' hmode'
  have hreplaced := exec_fragment_untextured (s := { s with live := m, u := v }) hds htex' hmode'
    { f with u := x, v := y }
  exact ⟨_, exec_fragment_untextured hds htex hmode f, hreplaced⟩

end Sys2Proof.Machine

/-! SUPPORT. Proofs for the family 43_clut_lookup.md: CLUT and destination addresses saturate in each coordinate (R181,
R183, R208), and the transparency test on an indexed path runs before modulation (R187). -/

namespace Sys2Proof.Machine

/-! ## Saturating addresses (R181, R183, R208) -/

theorem wa_toNat (x : BitVec 10) (y : BitVec 9) : (wa x y).toNat = y.toNat * 1024 + x.toNat := by
  rw [wa, BitVec.toNat_append, ← Nat.shiftLeft_add_eq_or_of_lt x.isLt, Nat.shiftLeft_eq]

theorem clampCol_natCast_toNat (n : Nat) : (clampCol n).toNat = min n 1023 := by
  rw [clampCol, clampInt_eq (by norm_num), BitVec.toNat_ofInt]
  omega

theorem clampRow_natCast_toNat (n : Nat) : (clampRow n).toNat = min n 511 := by
  have := clampRow_toNat n
  omega

theorem clutAddr_toNat (u : Uniform) (idx : Nat) :
    (clutAddr u idx).toNat = min u.clutY.toNat 511 * 1024 + min (u.clutX.toNat + idx) 1023 := by
  rw [clutAddr, wa_toNat, clampCol_natCast_toNat, clampRow_natCast_toNat]

theorem clampedAddr_toNat (x y : Word) : (clampedAddr x y).toNat = min y.toNat 511 * 1024 + min x.toNat 1023 := by
  rw [clampedAddr, wa_toNat, clampCol_natCast_toNat, clampRow_natCast_toNat]

/-- Settles O40: both addresses are `wa` of clamped coordinates, and the examples are two instances. -/
theorem addressesSaturate : Obligations.AddressesSaturate := by
  refine ⟨clutAddr_toNat, fun u hx hy => ⟨?_, ?_⟩, clampedAddr_toNat, ?_⟩
  · exact BitVec.eq_of_toNat_eq (by rw [clutAddr_toNat, hx, hy]; rfl)
  · exact BitVec.eq_of_toNat_eq (by rw [clutAddr_toNat, hx, hy]; rfl)
  · exact BitVec.eq_of_toNat_eq (by rw [clampedAddr_toNat]; rfl)

/-! ## Multiplication by zero (R10, R200) -/

/-- The product of two finite values, one of them a zero, is a zero. -/
theorem fmul32_eq_zero {a b : F32} (ha : isFinite32 a = true) (hb : isFinite32 b = true)
    (hzero : magnitude a = 0 ∨ magnitude b = 0) : fmul32 a b = signed (f32Sign a ^^ f32Sign b) 0 := by
  have hprod : magnitudeVal (magnitude a) * magnitudeVal (magnitude b) = 0 := by
    simpa only [Nat.mul_eq_zero, magnitudeVal_eq_zero_iff] using hzero
  rw [fmul32_finite ha hb, hprod]
  rfl

/-- A zero of either sign encodes to 0 (R123). -/
theorem encodeChannel_zero (pick : BitVec 5) (neg : Bool) : encodeChannel pick (signed neg 0) = 0#5 := by
  have hunit : UnitRange (signed neg 0) := by cases neg <;> exact ⟨by decide, by decide⟩
  have hmag : magnitude (signed neg 0) = 0 := (signed_fields neg (by norm_num)).1
  have hfloor : scaledFloor 0 = 0 := by rw [scaledFloor, scaledMagnitude_zero]; rfl
  apply BitVec.eq_of_toNat_eq
  rw [encodeChannel_of_not_nan hunit.not_nan, quantize_toNat hunit.not_nan, hunit.clamp_eq, hmag, hfloor]
  rfl

theorem encodeChannel_decodeChannel_mul_zero (pick k : BitVec 5) :
    encodeChannel pick (fmul32 (decodeChannel k) 0#32) = 0#5 := by
  rw [fmul32_eq_zero (decodeChannel_finite k) (by decide) (.inr (by decide)), encodeChannel_zero]

/-- The mask bit alone, as a packed colour (R91). -/
theorem ofBool_maskBit_append_zeros (c : Word) : BitVec.ofBool (maskBit c) ++ 0#5 ++ 0#5 ++ 0#5 = c &&& 0x8000#16 := by
  rw [show 0x8000#16 = BitVec.twoPow 16 15 from rfl, BitVec.and_twoPow, ← maskBit]
  cases maskBit c <;> rfl

/-- Under modulation {0, 0, 0} only the mask bit of the colour is left (R187, R200). -/
theorem tint_of_zero_modulation {s : State} (hmod : s.u.modulation = ⟨0#32, 0#32, 0#32⟩) (c : Word) :
    tint s c = (c &&& 0x8000#16, maskBit c) := by
  simp only [tint, hmod, modulate, decodeRgb, encodeColour, encodeChannel_decodeChannel_mul_zero,
    ofBool_maskBit_append_zeros]

/-! ## The indexed paths (R182, R184, R187) -/

/-- The pixel that a CLUT entry resolves to (R184, R187): the entry itself is tested, before it is modulated. -/
def entryPixel (s : State) (c : Word) : Pixel := if c = 0x0000#16 then none else some (tint s c)

theorem tex4Pixel_eq_entryPixel (s : State) (f : FragIn) : tex4Pixel s f = entryPixel s (clutEntry s 4 f) := by
  rw [clutEntry_four]
  rfl

theorem tex8Pixel_eq_entryPixel (s : State) (f : FragIn) : tex8Pixel s f = entryPixel s (clutEntry s 2 f) := by
  rw [clutEntry_two]
  rfl

@[simp] theorem entryPixel_zero (s : State) : entryPixel s 0x0000#16 = none := rfl

theorem entryPixel_of_zero_modulation {s : State} (hmod : s.u.modulation = ⟨0#32, 0#32, 0#32⟩) {c : Word}
    (hc : c ≠ 0x0000#16) : entryPixel s c = some (c &&& 0x8000#16, maskBit c) := by
  rw [entryPixel, if_neg hc, tint_of_zero_modulation hmod]

/-- The state with other modulation factors latched. -/
def State.withModulation (factor : Rgb) (s : State) : State :=
  { s with u := { s.u with modR := factor.r, modG := factor.g, modB := factor.b } }

/-- The modulation factors take no part in resolving the entry (R145, R181). -/
theorem clutEntry_withModulation (factor : Rgb) (s : State) (n : Nat) (f : FragIn) :
    clutEntry (s.withModulation factor) n f = clutEntry s n f := rfl

/-- FRAGMENT in an OPEN draw on either indexed path, `p` its `ctrl` and how many indices a texel word holds. -/
theorem exec_fragment_indexed {s : State} (hds : s.ds = .opened) {p : BitVec 3 × Nat}
    (hp : p ∈ [(0b100#3, 4), (0b101#3, 2)]) (hctrl : s.u.ctrl = p.1) (f : FragIn) :
    exec (.fragment f) s = .next (finishPixel f (entryPixel s (clutEntry s p.2 f)) s) := by
  simp only [List.mem_cons, List.not_mem_nil, or_false] at hp
  rw [exec_fragment_opened f hds, hctrl]
  rcases hp with rfl | rfl
  · rw [← tex4Pixel_eq_entryPixel]
    exact congrArg Host.Outcome.next (onPath_opened (fun s => finishPixel f (tex4Pixel s f) s) hds)
  · rw [← tex8Pixel_eq_entryPixel]
    exact congrArg Host.Outcome.next (onPath_opened (fun s => finishPixel f (tex8Pixel s f) s) hds)

/-- A discard, whole: one response, no pending write, no other effect (R184). -/
theorem finishPixel_none (f : FragIn) (s : State) :
    finishPixel f none s = { s with choices := s.choices + 1, responses := s.responses ++ [0x00000001#32] } := by
  rw [finishPixel, rspStatus_discarded]
  rfl

/-- A word written is pending at the destination afterwards (R208, R209). -/
theorem mem_pendAt_finishPixel_some (f : FragIn) (out : Word) (tm : Bool) (s : State) :
    out ∈ pendAt (finishPixel f (some (out, tm)) s).pend (clampedAddr f.dstX f.dstY) := by
  change out ∈ pendAt (pendWrite s.pend _ out) _
  rw [pendAt_pendWrite, if_pos rfl, mem_setInsert]
  exact .inl rfl

/-- Settles O30: the entry is tested whatever the factors are, as they take no part in resolving it; the tint of another
entry under zero factors is its mask bit. -/
theorem discardPrecedesModulation : Obligations.DiscardPrecedesModulation := by
  intro f s hds p hp hctrl
  constructor
  · intro hentry mr mg mb
    have hexec := exec_fragment_indexed (s := s.withModulation ⟨mr, mg, mb⟩) hds hp hctrl f
    rw [clutEntry_withModulation, hentry, entryPixel_zero, finishPixel_none] at hexec
    exact ⟨_, hexec⟩
  · intro hentry hr hg hb
    have hmod : s.u.modulation = ⟨0#32, 0#32, 0#32⟩ := by rw [Uniform.modulation, hr, hg, hb]
    have hexec := exec_fragment_indexed hds hp hctrl f
    rw [entryPixel_of_zero_modulation hmod hentry] at hexec
    obtain ⟨hst, -, -, hdata⟩ := rspWord_fields (clutEntry s p.2 f &&& 0x8000#16) (maskBit (clutEntry s p.2 f)) .ok
    exact ⟨_, _, hexec, rfl, hst, hdata, mem_pendAt_finishPixel_some f _ _ s⟩

end Sys2Proof.Machine

/-! SUPPORT. Proofs for the family 44_modulation_composite.md: what a FRAGMENT and the row of its path leave in an OPEN
draw (R204 to R207), that the result is a function of the fragment's own inputs (R212), and modulation by 1.0 (R211) and
of black with the mask bit (R204). -/

namespace Sys2Proof.Machine

/-! ## One fragment of an OPEN draw, by its path (R204 to R207) -/

/-- The pixel of a path, where it makes one: a path of an unrecognised tag makes none (R223). -/
def pathPixel (s : State) (f : FragIn) : Path → Option Pixel
  | .shade0 | .shade1 | .shade2 => some (shadePixel s f)
  | .tex4 => some (tex4Pixel s f)
  | .tex8 => some (tex8Pixel s f)
  | .tex15 => some (tex15Pixel s f)
  | .invalid3 | .invalid7 => none

/-- The state that a path leaves of an OPEN draw, by its pixel. -/
def finishPath (f : FragIn) (p : Option Pixel) (s : State) : State :=
  match p with
  | none => s.configError
  | some px => finishPixel f px s

theorem exec_pathRow_opened (f : FragIn) {s : State} (hds : s.ds = .opened) (p : Path) :
    exec (p.row f) s = .next (finishPath f (pathPixel s f p) s) := by
  cases p <;> exact congrArg Host.Outcome.next (onPath_opened _ hds)

/-- In an OPEN draw with path field `c`, the row of that path and FRAGMENT are the same command (R224). -/
theorem exec_row_or_fragment {f : FragIn} {s : State} {c : BitVec 3} (hds : s.ds = .opened) (hctrl : s.u.ctrl = c)
    {i : Instr} (hi : i ∈ [(decodePath c).row f, .fragment f]) :
    exec i s = .next (finishPath f (pathPixel s f (decodePath c)) s) := by
  simp only [List.mem_cons, List.not_mem_nil, or_false] at hi
  rcases hi with rfl | rfl
  · exact exec_pathRow_opened f hds _
  · rw [exec_fragment_opened f hds, hctrl, exec_pathRow_opened f hds]

/-- A written pixel, whole: one pending write, one response, no other effect (R208 to R210). -/
theorem finishPixel_some (f : FragIn) (out : Word) (tm : Bool) (s : State) :
    finishPixel f (some (out, tm)) s =
      { s with choices := s.choices + 1, pend := pendWrite s.pend (clampedAddr f.dstX f.dstY) out,
               responses := s.responses ++ [out ++ 0x000#12 ++ BitVec.ofBool tm ++ 0b000#3] } := rfl

/-- The two outcomes of an indexed path, by its CLUT entry (R184, R204, R205). -/
theorem exec_entryPixel {i : Instr} {f : FragIn} {s : State} {c : Word}
    (hexec : exec i s = .next (finishPixel f (entryPixel s c) s)) :
    (c = 0x0000#16 → ∃ n, exec i s = .next { s with choices := n, responses := s.responses ++ [0x00000001#32] }) ∧
    (c ≠ 0x0000#16 → ∃ n, exec i s = .next
      { s with choices := n, pend := pendWrite s.pend (clampedAddr f.dstX f.dstY) (tint s c).1,
               responses := s.responses ++ [(tint s c).1 ++ 0x000#12 ++ BitVec.ofBool (maskBit c) ++ 0b000#3] }) := by
  constructor
  · rintro rfl
    rw [entryPixel_zero, finishPixel_none] at hexec
    exact ⟨_, hexec⟩
  · intro hc
    rw [entryPixel, if_neg hc] at hexec
    exact ⟨_, hexec⟩

/-- Settles O25: TEX4's pixel is the one of the entry that the statement resolves. -/
theorem fragTex4Result : Obligations.FragTex4Result :=
  fun _ _ hds hctrl _ hi => exec_entryPixel (exec_row_or_fragment hds hctrl hi)

/-- Settles O26: TEX8's pixel is the one of the entry that the statement resolves. -/
theorem fragTex8Result : Obligations.FragTex8Result :=
  fun _ _ hds hctrl _ hi => exec_entryPixel (exec_row_or_fragment hds hctrl hi)

/-- Settles O27: TEX15's pixel is the tint of the texel word, whatever that word is. -/
theorem fragTex15Result : Obligations.FragTex15Result :=
  fun _ _ hds hctrl _ hi => ⟨_, exec_row_or_fragment hds hctrl hi⟩

/-- Settles O28: each of the three rows is the path of its own `ctrl` value, and their pixel is the same. -/
theorem fragShadeResult : Obligations.FragShadeResult := by
  intro f s hds p hp hctrl i hi
  simp only [List.mem_cons, List.not_mem_nil, or_false] at hp
  rcases hp with rfl | rfl | rfl <;> exact ⟨_, exec_row_or_fragment hds hctrl hi⟩

/-! ## Independence of fragments (R212) -/

theorem tint_congr {s s' : State} (hu : s'.u = s.u) (hchoices : s'.choices = s.choices) (c : Word) :
    tint s' c = tint s c := by
  rw [tint, tint, hu, hchoices]

theorem entryPixel_congr {s s' : State} (hu : s'.u = s.u) (hchoices : s'.choices = s.choices) (c : Word) :
    entryPixel s' c = entryPixel s c := by
  rw [entryPixel, entryPixel, tint_congr hu hchoices]

theorem ctrl_of_decodePath_textured : ∀ c : BitVec 3,
    (decodePath c = .tex4 → c = 0b100#3) ∧ (decodePath c = .tex8 → c = 0b101#3) ∧
      (decodePath c = .tex15 → c = 0b110#3) := by decide

/-- A path's pixel is a function of `U`, the draws, the operands and the word that gives its colour. -/
theorem pathPixel_congr {s s' : State} {f : FragIn} {p : Path} (hu : s'.u = s.u) (hchoices : s'.choices = s.choices)
    (htex4 : p = .tex4 → clutEntry s' 4 f = clutEntry s 4 f)
    (htex8 : p = .tex8 → clutEntry s' 2 f = clutEntry s 2 f)
    (htex15 : p = .tex15 → texelWord s' 1 f = texelWord s 1 f) : pathPixel s' f p = pathPixel s f p := by
  cases p with
  | shade0 | shade1 | shade2 => simp only [pathPixel, shadePixel, hchoices]
  | invalid3 | invalid7 => rfl
  | tex4 => simp only [pathPixel, tex4Pixel_eq_entryPixel, entryPixel_congr hu hchoices, htex4]
  | tex8 => simp only [pathPixel, tex8Pixel_eq_entryPixel, entryPixel_congr hu hchoices, htex8]
  | tex15 => simp only [pathPixel, tex15Pixel, tint_congr hu hchoices, htex15]

/-- What a path leaves of two states, by its pixel alone: one response, and one pending write or none (R210). -/
theorem finishPath_adds (f : FragIn) (p : Option Pixel) (s s' : State) :
    ∃ r, (finishPath f p s).responses = s.responses ++ [r] ∧ (finishPath f p s').responses = s'.responses ++ [r] ∧
      (((finishPath f p s).pend = s.pend ∧ (finishPath f p s').pend = s'.pend) ∨
        ∃ w, (finishPath f p s).pend = pendWrite s.pend (clampedAddr f.dstX f.dstY) w ∧
          (finishPath f p s').pend = pendWrite s'.pend (clampedAddr f.dstX f.dstY) w) := by
  match p with
  | none | some none => exact ⟨_, rfl, rfl, .inl ⟨rfl, rfl⟩⟩
  | some (some (out, tm)) => exact ⟨_, rfl, rfl, .inr ⟨out, rfl, rfl⟩⟩

/-- Settles O33: both runs take one path, whose pixels agree, and what it leaves depends on its pixel alone. -/
theorem fragmentDependsOnlyOnItsInputs : Obligations.FragmentDependsOnlyOnItsInputs := by
  intro f s s' hds hds' hu hchoices htex4 htex8 htex15
  have hmem : Instr.fragment f ∈ [(decodePath s.u.ctrl).row f, .fragment f] := by simp
  have hexec := exec_row_or_fragment hds rfl hmem
  have hexec' := exec_row_or_fragment hds' (congrArg Uniform.ctrl hu) hmem
  obtain ⟨hctrl4, hctrl8, hctrl15⟩ := ctrl_of_decodePath_textured s.u.ctrl
  have htexel : s.u.ctrl = 0b110#3 → texelWord s' 1 f = texelWord s 1 f := fun hctrl => by
    rw [texelWord, hchoices]
    exact htex15 hctrl
  have hpixel := pathPixel_congr hu hchoices (htex4 ∘ hctrl4) (htex8 ∘ hctrl8) (htexel ∘ hctrl15)
  rw [hpixel] at hexec'
  obtain ⟨r, hadds⟩ := finishPath_adds f (pathPixel s f (decodePath s.u.ctrl)) s s'
  exact ⟨_, _, r, hexec, hexec', hadds⟩

/-! ## Modulation by 1.0 (R211) -/

theorem ofBool_getLsbD_eq_extractLsb' {n : Nat} (x : BitVec n) (k : Nat) :
    BitVec.ofBool (x.getLsbD k) = x.extractLsb' k 1 := by
  ext i hi
  obtain rfl : i = 0 := by omega
  simp

/-- A pattern is its sign and its magnitude bits. -/
theorem signed_sign_magnitude (x : F32) : signed (f32Sign x) (magnitude x) = x := by
  rw [signed, f32Sign, ofBool_getLsbD_eq_extractLsb', magnitude, BitVec.ofNat_toNat, BitVec.setWidth_eq,
    BitVec.extractLsb'_append_extractLsb'_eq_extractLsb' (show 31 = 0 + 31 from rfl)]
  exact BitVec.extractLsb'_eq_self

/-- A finite value times 1.0 is rounded to itself: it is the only value at distance 0. -/
theorem roundMagnitude_mul_one {m : Nat} (hm : m < 0x7F800000) :
    roundMagnitude (magnitudeVal m * 2 ^ 149) (2 ^ 149 * 2 ^ 149) = m := by
  have hlargest : roundMagnitude (magnitudeVal 0x7F7FFFFF * 2 ^ 149) (2 ^ 149 * 2 ^ 149) = 0x7F7FFFFF := by
    decide +kernel
  have hfin : roundMagnitude (magnitudeVal m * 2 ^ 149) (2 ^ 149 * 2 ^ 149) < 0x7F800000 := by
    have hle : magnitudeVal m ≤ magnitudeVal 0x7F7FFFFF := magnitudeVal_strictMono.monotone (by omega)
    have hround := roundMagnitude_mono (d := 2 ^ 149 * 2 ^ 149) (by positivity) (Nat.mul_le_mul_right (2 ^ 149) hle)
    omega
  have hnearest := (roundMagnitude_nearest (by positivity) hfin m).1
  have hexact : ((magnitudeVal m * 2 ^ 149 : Nat) : ℚ) * 2 ^ 149 / (2 ^ 149 * 2 ^ 149 : Nat) = magnitudeVal m := by
    rw [div_eq_iff (by positivity)]
    push_cast
    ring
  rw [hexact, sub_self, abs_zero, abs_nonpos_iff, sub_eq_zero, Nat.cast_inj] at hnearest
  exact magnitudeVal_strictMono.injective hnearest

/-- Multiplication by 1.0 is exact on every finite value, not on the decoded channels alone. -/
theorem fmul32_one {x : F32} (hx : isFinite32 x = true) : fmul32 x f32One = x := by
  have hsign : f32Sign f32One = false := by decide
  have hmag : magnitude f32One = 0x3F800000 := by decide
  rw [fmul32_finite hx (by decide), hsign, hmag, Bool.xor_false, magnitudeVal_f32One,
    roundMagnitude_mul_one ((isFinite32_iff x).1 hx), signed_sign_magnitude]

/-- Under modulation (1.0, 1.0, 1.0) a colour is written as it was resolved, by the round trip (R125). -/
theorem tint_of_unit_modulation {s : State} (hmod : s.u.modulation = ⟨f32One, f32One, f32One⟩) (c : Word) :
    tint s c = (c, maskBit c) := by
  have hmodulate : modulate (decodeRgb c) ⟨f32One, f32One, f32One⟩ = decodeRgb c := by
    simp only [modulate, decodeRgb, fmul32_one (decodeChannel_finite _)]
  rw [tint, hmod, hmodulate, decodeEncodeRoundTrip s.choices c]

/-- Settles O31: the product by 1.0 is exact, so the tint of the texel word is that word. -/
theorem directPassThrough : Obligations.DirectPassThrough := by
  refine ⟨fun k => fmul32_one (decodeChannel_finite k), fun f s hds hctrl hr hg hb => ⟨s.choices + 1, ?_⟩⟩
  have hmod : s.u.modulation = ⟨f32One, f32One, f32One⟩ := by rw [Uniform.modulation, hr, hg, hb]; rfl
  have hpixel : tex15Pixel s f = some (texelWord s 1 f, maskBit (texelWord s 1 f)) := by
    rw [tex15Pixel, tint_of_unit_modulation hmod]
  have hexec : exec (.fragTex15 f) s = .next (finishPixel f (tex15Pixel s f) s) :=
    exec_row_or_fragment hds hctrl List.mem_cons_self
  rw [hexec, hpixel, finishPixel_some, maskBit, ofBool_getLsbD_eq_extractLsb']
  rfl

/-! ## Black with the mask bit (R200, R204) -/

/-- Settles O47: each channel of 0x8000 is a zero, and so is its product by a finite factor, of either sign. -/
theorem maskedBlackStaysUnderFiniteModulation : Obligations.MaskedBlackStaysUnderFiniteModulation := by
  intro i factor hfin
  have hzero : ∀ pick, ∀ x ∈ [factor.r, factor.g, factor.b],
      encodeChannel pick (fmul32 (decodeChannel 0#5) x) = 0#5 := fun pick x hx => by
    rw [fmul32_eq_zero (decodeChannel_finite 0#5) (hfin x hx) (.inl (by decide +kernel)), encodeChannel_zero]
  have hdecode : decodeRgb 0x8000#16 = ⟨decodeChannel 0#5, decodeChannel 0#5, decodeChannel 0#5⟩ := rfl
  rw [hdecode, encodeColour, modulate, hzero _ _ (by simp), hzero _ _ (by simp), hzero _ _ (by simp)]
  rfl

end Sys2Proof.Machine

/-! SUPPORT. Proofs for the family 45_commands.md: the step (R220), the refused packets (R221, R236, R240, R241), the
draw commands (R222 to R226, R230 to R234), the host port (R235 to R239), and that two fragments of one draw commute
(R227). Each refusal is a use of `exec_of_violatesProtocol`, every other outcome a case of a command's inversion. -/

namespace Sys2Proof.Machine

/-! ## The step and the refused packets (R220, R221, R240, R262) -/

theorem step_of_decode {s : State} {i : Instr} {rest : List Cmd} (hd : decode s.stream = .ok (i, rest)) :
    step s = exec i { s with stream := rest } := by
  rcases step_cases s with ⟨e, herr, _⟩ | ⟨i', rest', hd', hstep⟩
  · rw [hd] at herr
    cases herr
  · rw [hd] at hd'
    cases hd'
    exact hstep

/-- Settles O7: a packet that decodes is not the idle case of the step. -/
theorem stepRunsDecodedPacket : Obligations.StepRunsDecodedPacket := fun _ _ _ => step_of_decode

/-- A command with one of R262's five causes is refused whole: no other result has a cause. -/
theorem exec_of_violatesProtocol {i : Instr} {s : State} (hv : violatesProtocol i s = true) :
    exec i s = .next (refusedBy s) := by
  obtain ⟨t, hexec, hr⟩ := exec_result i s
  rcases hr.refused_or_protoErr_eq with ⟨-, rfl⟩ | ⟨hnone, -⟩
  · exact hexec
  · rw [hv] at hnone
    cases hnone

theorem step_of_violatesProtocol {s : State} {i : Instr} {rest : List Cmd} (hd : decode s.stream = .ok (i, rest))
    (hv : violatesProtocol i { s with stream := rest } = true) :
    step s = .next (refusedBy { s with stream := rest }) :=
  (step_of_decode hd).trans (exec_of_violatesProtocol hv)

/-- Settles O14: both rows are causes in every state. -/
theorem reservedRowsAnswerProtocolError : Obligations.ReservedRowsAnswerProtocolError :=
  fun _ _ _ => ⟨exec_of_violatesProtocol rfl, exec_of_violatesProtocol rfl⟩

/-- A whole packet with a reserved header bit set is ILLEGAL's, whatever follows it (R94, R221). -/
theorem decode_of_reservedBitSet {h : Cmd} {ps : List Cmd} (hlen : ps.length + 1 = packetLen h)
    (hres : reservedBitSet h = true) (rest : List Cmd) : decode (h :: ps ++ rest) = .ok (.illegal h ps, rest) := by
  have hh : h ∉ exactHeaders := by simp [mem_exactHeaders_iff, hres]
  rw [decode_packet_append hlen, decodePacket_of_not_mem hh]

/-- A VRAM_WRITE packet reads as its payload's four halves (R86). -/
theorem decode_vramWrite (p1 p2 : Cmd) (rest : List Cmd) :
    decode (0x00000004#32 :: p1 :: p2 :: rest) =
      .ok (.vramWrite (pairLo p1) (pairHi p1) (pairLo p2) (pairHi p2), rest) := by
  have hread := decode_encode_vramWrite (pairLo p1) (pairHi p1) (pairLo p2) (pairHi p2) rest
  rwa [encode, pair_pairHi_pairLo, pair_pairHi_pairLo] at hread

/-- Settles O12: a reserved header bit makes the packet ILLEGAL's; a reserved half of `P2` is the operand that
VRAM_WRITE checks. -/
theorem reservedBitIsProtocolError : Obligations.ReservedBitIsProtocolError := by
  refine ⟨fun s h ps rest hstream hlen hres => ?_, fun s p1 p2 rest hstream hrsv => ?_⟩
  · exact step_of_violatesProtocol (hstream ▸ decode_of_reservedBitSet hlen hres rest) rfl
  · have hv : violatesProtocol (.vramWrite (pairLo p1) (pairHi p1) (pairLo p2) (pairHi p2)) { s with stream := rest } =
        true := by
      have hne : pairHi p2 ≠ 0#16 := hrsv
      simp [violatesProtocol, hne]
    exact step_of_violatesProtocol (hstream ▸ decode_vramWrite p1 p2 rest) hv

/-- With no reserved bit set, `op` 7 is the header 7 alone (R81, R240). -/
theorem eq_seven_of_op {h : Cmd} (hop : h.extractLsb' 0 3 = 7#3) (hres : reservedBitSet h = false) :
    h = 0x00000007#32 := by
  have hmod : h.toNat % 8 = 7 := by
    simpa [BitVec.extractLsb'_toNat] using congrArg BitVec.toNat hop
  rw [reservedBitSet_eq_false_iff] at hres
  apply BitVec.eq_of_toNat_eq
  rw [BitVec.toNat_ofNat]
  omega

theorem packetLen_of_op_seven {h : Cmd} (hop : h.extractLsb' 0 3 = 7#3) : packetLen h = 1 := by
  rw [packetLen, hop]
  rfl

/-- Settles O13: with a reserved bit set the header is ILLEGAL's, as in O12, and with none it is RESERVED7's. -/
theorem opcodeSevenIsProtocolError : Obligations.OpcodeSevenIsProtocolError := by
  intro s h rest hstream hop
  have hlen : ([] : List Cmd).length + 1 = packetLen h := (packetLen_of_op_seven hop).symm
  have hwords : s.stream = [h] ++ rest := hstream
  cases hres : reservedBitSet h with
  | true => exact step_of_violatesProtocol (hwords ▸ decode_of_reservedBitSet hlen hres rest) rfl
  | false =>
    obtain rfl := eq_seven_of_op hop hres
    exact step_of_violatesProtocol (i := .reserved7) (hwords ▸ decode_packet_append hlen rest) rfl

/-! ## BEGIN_DRAW (R222, R223, R241) -/

/-- Settles O15: the accepting case of a BEGIN_DRAW with a valid tag. -/
theorem beginDrawOpensDraw : Obligations.BeginDrawOpensDraw := by
  intro mode t d s hmode hds
  rw [exec_beginRow_validMode hmode]
  rcases beginDraw_cases mode t d s with ⟨-, hopen⟩ | ⟨hne, -⟩
  · rw [hopen]
    rfl
  · exact absurd hds hne

/-- Settles O16: the accepting case of a BEGIN_DRAW with tag 3; STATUS there is a function of `t` and `PROTO_ERR`. -/
theorem beginDrawWithBadTagFailsDraw : Obligations.BeginDrawWithBadTagFailsDraw := by
  intro t d s hds
  rcases beginFailed_cases t d s with ⟨-, hfail⟩ | ⟨hne, -⟩
  · refine ⟨_, exec_beginRow_badMode t d s, hfail, fun hproto => ?_⟩
    simp only [hfail, statusWord, latch, hproto]
    cases t <;> decide
  · exact absurd hds hne

theorem isBegin_beginRow (mode : BitVec 2) (t : Bool) (d : DrawIn) : isBegin (beginRow mode t d) = true := by
  induction mode, t using forall_beginFields with
  | h t => cases t <;> exact ⟨rfl, rfl, rfl, rfl⟩

/-- Settles O17: a BEGIN_DRAW of any tag is refused while a draw is open. -/
theorem beginDrawInsideDrawRefused : Obligations.BeginDrawInsideDrawRefused :=
  fun mode t d _ hds => exec_begin_of_open (isBegin_beginRow mode t d) hds

/-! ## FRAGMENT's dispatch and its refusals (R161, R224 to R226) -/

/-- The dispatcher's decoding of `ctrl`, by its two fields (R92, R161). -/
theorem decodePath_ctrl_of_validMode : ∀ (textured : Bool) (mode : BitVec 2), mode ≠ 3#2 →
    decodePath (BitVec.ofBool textured ++ mode) =
      if textured = false then if mode = 0#2 then .shade0 else if mode = 1#2 then .shade1 else .shade2
      else if mode = 0#2 then .tex4 else if mode = 1#2 then .tex8 else .tex15 := by decide

/-- Settles O19: FRAGMENT is the row of its path, and the path is selected by `textured` and `mode`. -/
theorem fragmentRunsSelectedPath : Obligations.FragmentRunsSelectedPath := by
  intro f s hds hmode
  rw [exec_fragment_opened f hds, Uniform.ctrl, decodePath_ctrl_of_validMode _ _ hmode]
  split_ifs <;> rfl

/-- Settles O20: of the three cases of a FRAGMENT row, a FAILED draw leaves one. -/
theorem fragmentOfFailedDrawAnswersConfigError : Obligations.FragmentOfFailedDrawAnswersConfigError := by
  refine fun f s hds => ⟨fun i hi => ?_, fun hinv => hinv.failedFlag hds⟩
  rcases exec_fragmentRow_cases s hi with ⟨hidle, -⟩ | ⟨-, hexec⟩ | ⟨hopen, -⟩
  · simp [hds] at hidle
  · exact hexec
  · simp [hds] at hopen

/-- Settles O21: with no draw open each of these rows has the cause of a command that needs a draw (R262). -/
theorem commandsNeedingDrawRefusedInIdle : Obligations.CommandsNeedingDrawRefusedInIdle := by
  intro f s hds i hi
  have hv : violatesProtocol i s = !s.ds.drawOpen := by
    rcases List.mem_cons.1 hi with rfl | hi
    · rfl
    · rcases List.mem_cons.1 hi with rfl | hi
      · rfl
      · obtain ⟨-, -, -, hfragment⟩ := fragmentRow_group hi
        exact hfragment s
  exact exec_of_violatesProtocol (by simp [hv, hds])

/-! ## END_DRAW and ABORT_DRAW (R231, R232, R234) -/

/-- Settles O22: the middle case of END_DRAW; the invariant gives the rest of a FAILED draw. -/
theorem endDrawClosesFailedDraw : Obligations.EndDrawClosesFailedDraw := by
  refine fun s hds => ⟨?_, fun hinv => ⟨hinv.pendEmpty (by simp [hds]), hinv.failedFlag hds⟩⟩
  rcases execEndDraw_cases s with ⟨hidle, -⟩ | ⟨-, hexec⟩ | ⟨hopen, -⟩
  · simp [hds] at hidle
  · exact hexec
  · simp [hds] at hopen

/-- In a canonical PEND the set at an entry's address is the entry's own. -/
theorem pendAt_of_mem {p : Pending} (hp : Pending.wf p) {e : Nat × List Word} (he : e ∈ p) :
    pendAt p (BitVec.ofNat 19 e.1) = e.2 := by
  obtain ⟨hsorted, hrange, -, -⟩ := hp
  rw [pendAt, BitVec.toNat_ofNat, Nat.mod_eq_of_lt (hrange e he), sparseGet_of_mem hsorted he]
  rfl

/-- The close of a draw writes no byte of a word with nothing pending (R228, R234). -/
theorem foldl_readByte_of_pendAt_nil {f : Memory → Nat × List Word → Memory}
    (hf : ∀ m k ws, f m (k, ws) = m ∨ ∃ w ∈ ws, f m (k, ws) = writeWord m (BitVec.ofNat 19 k) w)
    {p : Pending} (hp : Pending.wf p) (m : Memory) {b : Nat}
    (hb : ∀ a : WordAddr, b / 2 = a.toNat → pendAt p a = []) : readByte (p.foldl f m) b = readByte m b := by
  refine foldl_readByte hf p m b fun e he hword => ?_
  have hnil := hb (BitVec.ofNat 19 e.1) (by rw [hword, BitVec.toNat_ofNat])
  rw [pendAt_of_mem hp he] at hnil
  obtain ⟨-, -, hne, -⟩ := hp
  exact hne e he hnil

/-- Settles O23: word by word and byte by byte, END_DRAW's commit writes pending words only. -/
theorem endDrawCommitsPendingWords : Obligations.EndDrawCommitsPendingWords := by
  intro s hinv hds
  rcases execEndDraw_cases s with ⟨hidle, -⟩ | ⟨hfail, -⟩ | ⟨-, hexec⟩
  · simp [hds] at hidle
  · simp [hds] at hfail
  · refine ⟨_, hexec, fun a ha => ?_, fun b hb => ?_, rfl⟩
    · rcases readWord_commitAll hinv.pendWf s.choices s.live a with ⟨hnil, -⟩ | hmem
      · exact absurd hnil ha
      · exact hmem
    · exact foldl_readByte_of_pendAt_nil (commitEntry_writes s.choices) hinv.pendWf s.live hb

/-- Settles O24: as O23, but each word may also stay; in a FAILED draw nothing is pending, so nothing is written. -/
theorem abortDrawKeepsOrCommitsEachWord : Obligations.AbortDrawKeepsOrCommitsEachWord := by
  intro s hinv hds
  rcases execAbortDraw_cases s with ⟨hidle, -⟩ | ⟨-, hexec⟩
  · exact absurd hidle hds
  · refine ⟨_, hexec, readWord_abortAll hinv.pendWf s.choices s.live, fun b hb => ?_, fun hfail => ?_, rfl⟩
    · exact foldl_readByte_of_pendAt_nil (abortEntry_cases s.choices) hinv.pendWf s.live hb
    · have hnil : s.pend = [] := hinv.pendEmpty (by simp [hfail])
      simp only [hnil]
      rfl

/-! ## The host port (R235 to R239) -/

/-- Settles O49: the accepting case of VRAM_WRITE, and what one whole-word write leaves at every byte. -/
theorem vramWriteStoresWord : Obligations.VramWriteStoresWord := by
  intro x y w s hds
  rcases execVramWrite_cases x y w 0#16 s with ⟨hrsv | hne, -⟩ | ⟨-, -, hexec⟩
  · exact absurd rfl hrsv
  · exact absurd hds hne
  · refine ⟨_, hexec, readWord_writeWord_same s.live _ w, fun b hb => ?_, rfl⟩
    rw [readByte_writeWord, if_neg (by omega), if_neg (by omega)]

/-- Settles O50: a VRAM_WRITE inside a draw has a cause, whatever its operands are. -/
theorem vramWriteInsideDrawRefused : Obligations.VramWriteInsideDrawRefused :=
  fun _ _ _ _ _ hds => exec_of_violatesProtocol (by simp [violatesProtocol, hds])

/-- An OK response without the mask bit is its data above zeros (R88). -/
theorem rspWord_ok_eq_append (w : Word) : rspWord w false .ok = w ++ 0x0000#16 := by
  have hzeros : w ++ 0#12 ++ 0#1 ++ 0#3 = w ++ (0#12 ++ 0#1 ++ 0#3) := by
    simp only [BitVec.append_assoc, BitVec.cast_eq]
  exact hzeros

/-- Settles O51: the IDLE case of VRAM_READ. -/
theorem vramReadReturnsWord : Obligations.VramReadReturnsWord := by
  intro x y s hds
  rcases execVramRead_cases x y s with ⟨-, hexec⟩ | ⟨hne, -⟩
  · rw [rspWord_ok_eq_append] at hexec
    exact hexec
  · exact absurd hds hne

/-- Settles O52: the other case of VRAM_READ; where nothing is pending the set has one element. -/
theorem vramReadInsideDrawPicks : Obligations.VramReadInsideDrawPicks := by
  intro x y s hds
  rcases execVramRead_cases x y s with ⟨hidle, -⟩ | ⟨-, w, hw, hexec⟩
  · exact absurd hidle hds
  · rw [rspWord_ok_eq_append] at hexec
    refine ⟨w, hw, fun hnil => ?_, hexec⟩
    rw [hnil] at hw
    exact List.mem_singleton.1 hw

/-! ## STATUS (R28, R239) -/

theorem extractLsb'_succ_concat {n : Nat} (x : BitVec n) (b : Bool) (k len : Nat) :
    (x.concat b).extractLsb' (k + 1) len = x.extractLsb' k len :=
  BitVec.extractLsb'_append_eq_of_le (by omega)

/-- STATUS as its fields put below one another, the lowest bit last (R28). -/
theorem statusWord_eq_concat (s : State) :
    statusWord s = (((((0#9).concat s.u.textured ++ s.u.mode).concat s.protoErr).concat s.cfgErr).concat
      (s.ds == .failed)).concat s.ds.drawOpen := rfl

/-- The fields of STATUS, from the lowest (R28): the four flags are read past by one bit each. -/
theorem statusWord_fields (s : State) :
    (statusWord s).getLsbD 0 = s.ds.drawOpen ∧ (statusWord s).getLsbD 1 = (s.ds == .failed) ∧
      (statusWord s).getLsbD 2 = s.cfgErr ∧ (statusWord s).getLsbD 3 = s.protoErr ∧
      (statusWord s).extractLsb' 4 2 = s.u.mode ∧ (statusWord s).getLsbD 6 = s.u.textured ∧
      (statusWord s).extractLsb' 7 9 = 0#9 := by
  rw [statusWord_eq_concat]
  simp only [BitVec.getLsbD_concat_zero, BitVec.getLsbD_concat_succ, extractLsb'_succ_concat, true_and]
  refine ⟨BitVec.extractLsb'_append_eq_right, ?_, ?_⟩
  · exact BitVec.getLsbD_append.trans BitVec.getLsbD_concat_zero
  · rw [BitVec.extractLsb'_append_eq_of_le (by decide), extractLsb'_succ_concat]
    rfl

/-- Settles O53: the response is STATUS, the bits are its fields, and after reset all of them are 0. -/
theorem readStatusReturnsStatus : Obligations.ReadStatusReturnsStatus := by
  refine ⟨fun s => ?_, fun s => ?_, by decide⟩
  · rw [← rspWord_ok_eq_append]
    rfl
  · obtain ⟨hopen, hfailed, hfields⟩ := statusWord_fields s
    exact ⟨by rw [hopen, drawOpen_iff], by rw [hfailed, beq_iff_eq], hfields⟩

/-! ## Pending writes commute (R11, R22, R227) -/

/-- Sets of words in rising order are equal when they have the same elements. -/
theorem eq_of_rising_of_mem_iff {l l' : List Word} (h : (l.map BitVec.toNat).Pairwise (· < ·))
    (h' : (l'.map BitVec.toNat).Pairwise (· < ·)) (hmem : ∀ v, v ∈ l ↔ v ∈ l') : l = l' := by
  have hmap : l.map BitVec.toNat = l'.map BitVec.toNat :=
    h.eq_of_mem_iff h' fun n => by simp only [List.mem_map, hmem]
  exact List.map_injective_iff.2 (fun _ _ => BitVec.eq_of_toNat_eq) hmap

theorem setInsert_comm (v w : Word) {l : List Word} (h : (l.map BitVec.toNat).Pairwise (· < ·)) :
    setInsert v (setInsert w l) = setInsert w (setInsert v l) := by
  refine eq_of_rising_of_mem_iff (setInsert_sorted v (setInsert_sorted w h))
    (setInsert_sorted w (setInsert_sorted v h)) fun x => ?_
  simp only [mem_setInsert]
  tauto

theorem pendAt_rising {p : Pending} (hp : Pending.wf p) (a : WordAddr) :
    ((pendAt p a).map BitVec.toNat).Pairwise (· < ·) := by
  by_cases hnil : pendAt p a = []
  · simp [hnil]
  · obtain ⟨-, -, -, hrising⟩ := hp
    exact hrising _ (pendAt_mem hnil)

theorem sparseGet_pendWrite (p : Pending) (a : WordAddr) (w : Word) (k : Nat) :
    sparseGet k (pendWrite p a w) = if k = a.toNat then some (setInsert w (pendAt p a)) else sparseGet k p := by
  split
  next hk => rw [hk, pendWrite, sparseGet_set_same]
  next hk => rw [pendWrite, sparseGet_set_other _ _ hk]

/-- Two pending writes commute: at one address because its set is a set, at two because they do not meet. -/
theorem pendWrite_comm {p : Pending} (hp : Pending.wf p) (a b : WordAddr) (v w : Word) :
    pendWrite (pendWrite p a v) b w = pendWrite (pendWrite p b w) a v := by
  obtain ⟨hsorted, -⟩ := pendWrite_wf (pendWrite_wf hp a v) b w
  obtain ⟨hsorted', -⟩ := pendWrite_wf (pendWrite_wf hp b w) a v
  refine sparse_ext hsorted hsorted' fun k => ?_
  simp only [sparseGet_pendWrite, pendAt_pendWrite]
  by_cases hab : a = b
  · subst hab
    rw [if_pos rfl, if_pos rfl, setInsert_comm w v (pendAt_rising hp a)]
    split_ifs <;> rfl
  · have hne : a.toNat ≠ b.toNat := fun h => hab (BitVec.eq_of_toNat_eq h)
    rw [if_neg hab, if_neg (Ne.symm hab)]
    split_ifs with hkb hka
    · exact absurd (hka.symm.trans hkb) hne
    all_goals rfl

/-! ## A fragment without a draw of its own (R127, R144, R227) -/

theorem floatVal_ne_nan {x : F32} (hx : isNaN x = false) : floatVal x ≠ .nan := fun hnan => by
  simp [isNaN, hnan] at hx

/-- A coordinate that is not a NaN takes no draw (R142, R143, R144). -/
theorem pixelPos_of_not_nan {u : F32} (hu : isNaN u = false) (i j n : Nat) : pixelPos i n u = pixelPos j n u := by
  have hne := floatVal_ne_nan hu
  unfold pixelPos
  cases hval : floatVal u with
  | nan => exact absurd hval hne
  | inf | fin => rfl

theorem texelRow_of_not_nan {v : F32} (hv : isNaN v = false) (i j : Nat) : texelRow i v = texelRow j v := by
  have hne := floatVal_ne_nan hv
  unfold texelRow
  cases hval : floatVal v with
  | nan => exact absurd hval hne
  | inf | fin => rfl

/-- A colour without a NaN channel encodes without a draw (R123, R127). -/
theorem encodeColour_of_not_nan {c : Rgb} (hr : isNaN c.r = false) (hg : isNaN c.g = false) (hb : isNaN c.b = false)
    (m : Bool) (i j : Nat) : encodeColour i c m = encodeColour j c m := by
  simp only [encodeColour, encodeChannel_of_not_nan, hr, hg, hb]

/-- No operand of the fragment is a NaN. -/
structure NoNaNOperand (f : FragIn) : Prop where
  u : isNaN f.u = false
  v : isNaN f.v = false
  r : isNaN f.r = false
  g : isNaN f.g = false
  b : isNaN f.b = false

/-- Every modulation factor is finite. -/
structure Uniform.FiniteModulation (u : Uniform) : Prop where
  r : isFinite32 u.modR = true
  g : isFinite32 u.modG = true
  b : isFinite32 u.modB = true

section
variable {s s' : State} {f : FragIn}

/-- A decoded colour has finite channels, so finite factors give a product without a NaN (R120, R200). -/
theorem tint_of_finiteModulation (hu : s'.u = s.u) (hfin : s.u.FiniteModulation) (c : Word) : tint s' c = tint s c := by
  have hr : isNaN (modulate (decodeRgb c) s.u.modulation).r = false :=
    fmul32_finite_not_nan (decodeChannel_finite _) hfin.r
  have hg : isNaN (modulate (decodeRgb c) s.u.modulation).g = false :=
    fmul32_finite_not_nan (decodeChannel_finite _) hfin.g
  have hb : isNaN (modulate (decodeRgb c) s.u.modulation).b = false :=
    fmul32_finite_not_nan (decodeChannel_finite _) hfin.b
  rw [tint, tint, hu, encodeColour_of_not_nan hr hg hb _ s'.choices s.choices]

theorem texelWord_of_noNaN (hlive : s'.live = s.live) (hf : NoNaNOperand f) (n : Nat) :
    texelWord s' n f = texelWord s n f := by
  simp only [texelWord, texelAddr, texelCol, hlive, pixelPos_of_not_nan hf.u s'.choices s.choices,
    texelRow_of_not_nan hf.v s'.choices s.choices]

theorem clutEntry_of_noNaN (hu : s'.u = s.u) (hlive : s'.live = s.live) (hf : NoNaNOperand f) (n : Nat) :
    clutEntry s' n f = clutEntry s n f := by
  simp only [clutEntry, texelAddr, texelCol, texelSub, hu, hlive, pixelPos_of_not_nan hf.u s'.choices s.choices,
    texelRow_of_not_nan hf.v s'.choices s.choices]

/-- Where nothing is drawn, a path's pixel reads `U`, LIVE and the operands only (R212). -/
theorem pathPixel_of_noNaN (hu : s'.u = s.u) (hlive : s'.live = s.live) (hf : NoNaNOperand f)
    (hfin : s.u.FiniteModulation) (p : Path) : pathPixel s' f p = pathPixel s f p := by
  cases p with
  | shade0 | shade1 | shade2 =>
    have hcolour := encodeColour_of_not_nan (c := ⟨f.r, f.g, f.b⟩) hf.r hf.g hf.b false s'.choices s.choices
    simp only [pathPixel, shadePixel, hcolour]
  | invalid3 | invalid7 => rfl
  | tex4 =>
    simp only [pathPixel, tex4Pixel_eq_entryPixel, entryPixel, clutEntry_of_noNaN hu hlive hf,
      tint_of_finiteModulation hu hfin]
  | tex8 =>
    simp only [pathPixel, tex8Pixel_eq_entryPixel, entryPixel, clutEntry_of_noNaN hu hlive hf,
      tint_of_finiteModulation hu hfin]
  | tex15 => simp only [pathPixel, tex15Pixel, texelWord_of_noNaN hlive hf, tint_of_finiteModulation hu hfin]

/-- Such a fragment does the same at every point of its draw: its pixel is fixed by the draw's snapshot (R59, R227). -/
theorem exec_fragment_of_noNaN (hds : s'.ds = .opened) (hu : s'.u = s.u) (hlive : s'.live = s.live)
    (hf : NoNaNOperand f) (hfin : s.u.FiniteModulation) :
    exec (.fragment f) s' = .next (finishPath f (pathPixel s f (decodePath s.u.ctrl)) s') := by
  rw [exec_row_or_fragment (f := f) hds (congrArg Uniform.ctrl hu) (by simp), pathPixel_of_noNaN hu hlive hf hfin]

end

/-! ## Two fragments of one draw (R227) -/

/-- What a fragment may do to PEND: nothing, or one pending write (R210). -/
def AtMostOneWrite (write : Pending → Pending) : Prop :=
  write = id ∨ ∃ a w, write = fun p => pendWrite p a w

theorem AtMostOneWrite.comm {write write' : Pending → Pending} (h : AtMostOneWrite write) (h' : AtMostOneWrite write')
    {p : Pending} (hp : Pending.wf p) : write' (write p) = write (write' p) := by
  rcases h with rfl | ⟨a, v, rfl⟩
  · rfl
  · rcases h' with rfl | ⟨b, w, rfl⟩
    · rfl
    · exact pendWrite_comm hp a b v w

/-- What a path leaves of any state, by its pixel alone: its write, its response, and whether it is counted. -/
theorem finishPath_effect (f : FragIn) (px : Option Pixel) :
    ∃ write n r, AtMostOneWrite write ∧ ∀ s, finishPath f px s =
      { s with pend := write s.pend, choices := s.choices + n, responses := s.responses ++ [r] } := by
  match px with
  | none => exact ⟨id, 0, _, .inl rfl, fun _ => rfl⟩
  | some none => exact ⟨id, 1, _, .inl rfl, fun _ => rfl⟩
  | some (some (out, tm)) => exact ⟨_, 1, _, .inr ⟨_, out, rfl⟩, fun _ => rfl⟩

/-- A fragment that draws nothing adds the same to every state of its draw: a write, a count and a response. -/
theorem exec_fragment_effect {f : FragIn} {s : State} (hf : NoNaNOperand f) (hfin : s.u.FiniteModulation) :
    ∃ write n r, AtMostOneWrite write ∧ ∀ t : State, t.ds = .opened → t.u = s.u → t.live = s.live →
      exec (.fragment f) t = .next
        { t with pend := write t.pend, choices := t.choices + n, responses := t.responses ++ [r] } := by
  obtain ⟨write, n, r, hwrite, heffect⟩ := finishPath_effect f (pathPixel s f (decodePath s.u.ctrl))
  exact ⟨write, n, r, hwrite, fun t hds hu hlive => by rw [exec_fragment_of_noNaN hds hu hlive hf hfin, heffect]⟩

/-- Settles O32: each fragment adds the same in both orders; the writes commute, and the counts add up. -/
theorem fragmentsCommute : Obligations.FragmentsCommute := by
  intro f g s hinv hds hoperands hfactors
  simp only [List.forall_mem_cons, List.not_mem_nil, false_imp_iff, implies_true, and_true] at hoperands hfactors
  obtain ⟨hfu, hfv, hfr, hfg, hfb, hgu, hgv, hgr, hgg, hgb⟩ := hoperands
  obtain ⟨hmr, hmg, hmb⟩ := hfactors
  obtain ⟨writeF, nF, rF, hwriteF, hexecF⟩ := exec_fragment_effect (s := s) ⟨hfu, hfv, hfr, hfg, hfb⟩ ⟨hmr, hmg, hmb⟩
  obtain ⟨writeG, nG, rG, hwriteG, hexecG⟩ := exec_fragment_effect (s := s) ⟨hgu, hgv, hgr, hgg, hgb⟩ ⟨hmr, hmg, hmb⟩
  refine ⟨_, _, _, _, rF, rG, hexecF s hds rfl rfl, hexecG _ hds rfl rfl, hexecG s hds rfl rfl,
    hexecF _ hds rfl rfl, by simp, by simp, ?_⟩
  simp only [hwriteF.comm hwriteG hinv.pendWf, Nat.add_right_comm s.choices nF nG]

end Sys2Proof.Machine

/-! SUPPORT. Proofs for the family 60_exceptions.md: the status that each command answers (R262, R266), and the idle
step (R272). Each command is either refused for a cause of R262 or answers a status of the rest of R266's list; the case of a
FRAGMENT in an OPEN draw is read off its path. -/

namespace Sys2Proof.Machine

/-! ## The idle step (R220, R272) -/

theorem step_of_decode_error {s : State} {e : DecodeError} (hd : decode s.stream = .error e) : step s = .next s := by
  rw [step, hd]

/-- Settles O8: neither the empty stream nor a cut packet decodes. -/
theorem stepIdlesWithoutPacket : Obligations.StepIdlesWithoutPacket := by
  rintro s (hempty | ⟨h, ps, hstream, hlen⟩)
  · exact step_of_decode_error (e := .noHeader) (by rw [hempty, decode])
  · exact step_of_decode_error (by rw [hstream, decode_of_length_lt hlen])

/-! ## The status that a command answers (R89, R266) -/

/-- `t` has one response more than `s`, and its status is `st`. -/
def AnswersStatus (st : Status) (s t : State) : Prop := ∃ r, t.responses = s.responses ++ [r] ∧ rspSt r = st.code

theorem answersStatus_rspWord {s t : State} {w : Word} {tm : Bool} {st : Status}
    (h : t.responses = s.responses ++ [rspWord w tm st]) : AnswersStatus st s t :=
  ⟨_, h, (rspWord_fields w tm st).1⟩

theorem answersStatus_rspStatus {s t : State} {st : Status} (h : t.responses = s.responses ++ [rspStatus st]) :
    AnswersStatus st s t :=
  answersStatus_rspWord h

theorem refusedBy_answersStatus (s : State) : AnswersStatus .protoError s (refusedBy s) :=
  answersStatus_rspStatus rfl

/-- The status of a fragment's pixel: a discard, or a word written (R184, R209). -/
def pixelStatus : Pixel → Status
  | none => .discarded
  | some _ => .ok

theorem pixelStatus_ne_protoError (p : Pixel) : pixelStatus p ≠ .protoError := by
  cases p <;> simp [pixelStatus]

theorem finishPixel_answersStatus (f : FragIn) (p : Pixel) (s : State) :
    AnswersStatus (pixelStatus p) s (finishPixel f p s) := by
  cases p with
  | none => exact answersStatus_rspStatus rfl
  | some _ => exact answersStatus_rspWord rfl

theorem code_ne_three {st : Status} (h : st ≠ .protoError) : st.code ≠ 3#3 := by
  revert h
  cases st <;> decide

/-- The lines of R266 that can apply to a command that is no FRAGMENT and has no cause of R262. -/
theorem outcome_of_not_fragment {i : Instr} {s : State} (hv : violatesProtocol i s = false)
    (hfrag : isFragment i = false) : outcome i s = if isBadBegin i then .cfgError else .ok := by
  cases i with
  | fragment _ => cases hfrag
  | _ => simp [outcome, hv]

/-- A command without a cause of R262 never answers status 3; outside a FRAGMENT its status is the one of R266. -/
theorem Result.answersStatus {i : Instr} {s t : State} (hr : Result i s t) (hv : violatesProtocol i s = false) :
    ∃ st, st ≠ .protoError ∧ AnswersStatus st s t ∧ (isFragment i = false → st = outcome i s) := by
  cases hr with
  | refused hcause => simp [hcause] at hv
  | cfgError _ hfrag => exact ⟨.cfgError, by decide, answersStatus_rspStatus rfl, by simp [hfrag]⟩
  | pixel f p hi =>
    obtain ⟨-, -, hfrag, -⟩ := fragmentRow_group hi
    exact ⟨pixelStatus p, pixelStatus_ne_protoError p, finishPixel_answersStatus f p s, by simp [hfrag]⟩
  | failed _ _ _ hbad =>
    exact ⟨.cfgError, by decide, answersStatus_rspStatus rfl, fun hf => by simp [outcome_of_not_fragment hv hf, hbad]⟩
  | opened _ _ _ _ hgood =>
    exact ⟨.ok, by decide, answersStatus_rspStatus rfl, fun hf => by simp [outcome_of_not_fragment hv hf, hgood]⟩
  | endFailed hi | endOpened hi | aborted hi | wrote _ _ _ hi =>
    subst hi
    exact ⟨.ok, by decide, answersStatus_rspStatus rfl, fun hf => (outcome_of_not_fragment hv hf).symm⟩
  | readIdle _ _ hi | readInDraw _ _ _ hi | status hi =>
    subst hi
    exact ⟨.ok, by decide, answersStatus_rspWord rfl, fun hf => (outcome_of_not_fragment hv hf).symm⟩

/-- Settles O11: a command with a cause is refused whole, and one without answers another status and keeps
`PROTO_ERR`. -/
theorem protocolErrorChangesOnlyItsFlag : Obligations.ProtocolErrorChangesOnlyItsFlag := by
  refine ⟨fun i s => ⟨exec_of_violatesProtocol, fun hv => ?_⟩, fun s i rest hd hv => step_of_violatesProtocol hd hv⟩
  obtain ⟨t, hexec, hr⟩ := exec_result i s
  obtain ⟨st, hst, ⟨r, hrsp, hcode⟩, -⟩ := hr.answersStatus hv
  rcases hr.refused_or_protoErr_eq with ⟨hcause, -⟩ | ⟨-, hkept⟩
  · simp [hcause] at hv
  · exact ⟨t, r, hexec, hrsp, hcode ▸ code_ne_three hst, hkept⟩

/-! ## FRAGMENT's lines of the list (R184, R225, R266) -/

theorem decodePath_eq_tex4_iff : ∀ c : BitVec 3, decodePath c = .tex4 ↔ c = 0b100#3 := by decide

theorem decodePath_eq_tex8_iff : ∀ c : BitVec 3, decodePath c = .tex8 ↔ c = 0b101#3 := by decide

theorem pixelStatus_entryPixel (s : State) (c : Word) :
    pixelStatus (entryPixel s c) = if c = 0x0000#16 then .discarded else .ok := by
  unfold entryPixel
  split_ifs <;> rfl

/-- A path of a valid mode makes a pixel, and discards it only for a zero entry on an indexed path (R184, R186). -/
theorem pathPixel_of_valid {p : Path} (h3 : p ≠ .invalid3) (h7 : p ≠ .invalid7) (s : State) (f : FragIn) :
    ∃ px, pathPixel s f p = some px ∧ pixelStatus px =
      if p = .tex4 ∧ clutEntry s 4 f = 0x0000#16 then .discarded
      else if p = .tex8 ∧ clutEntry s 2 f = 0x0000#16 then .discarded
      else .ok := by
  cases p with
  | shade0 | shade1 | shade2 | tex15 => exact ⟨_, rfl, rfl⟩
  | tex4 => exact ⟨_, rfl, by simp [tex4Pixel_eq_entryPixel, pixelStatus_entryPixel]⟩
  | tex8 => exact ⟨_, rfl, by simp [tex8Pixel_eq_entryPixel, pixelStatus_entryPixel]⟩
  | invalid3 => exact absurd rfl h3
  | invalid7 => exact absurd rfl h7

theorem decodePath_ctrl_ne_invalid : ∀ (textured : Bool) (mode : BitVec 2), mode ≠ 3#2 →
    decodePath (BitVec.ofBool textured ++ mode) ≠ .invalid3 ∧
      decodePath (BitVec.ofBool textured ++ mode) ≠ .invalid7 := by decide

/-- A FRAGMENT of a FAILED draw answers CFG_ERROR (R225). -/
theorem fragment_failed_answersOutcome {f : FragIn} {s : State} (hds : s.ds = .failed) :
    ∃ t, exec (.fragment f) s = .next t ∧ AnswersStatus (outcome (.fragment f) s) s t := by
  have hout : outcome (.fragment f) s = .cfgError := by simp [outcome, violatesProtocol, isBadBegin, hds]
  obtain ⟨hexec, -⟩ := fragmentOfFailedDrawAnswersConfigError f s hds
  exact ⟨_, hexec _ (by simp [fragmentRows]), hout ▸ answersStatus_rspStatus rfl⟩

/-- A FRAGMENT of an OPEN draw answers the status of its path's pixel; the draw's mode is valid, so it has
one (R161). -/
theorem fragment_opened_answersOutcome {f : FragIn} {s : State} (hds : s.ds = .opened) (hmode : s.u.mode ≠ 3#2) :
    ∃ t, exec (.fragment f) s = .next t ∧ AnswersStatus (outcome (.fragment f) s) s t := by
  obtain ⟨h3, h7⟩ := decodePath_ctrl_ne_invalid s.u.textured s.u.mode hmode
  obtain ⟨px, hpx, hst⟩ := pathPixel_of_valid (p := decodePath s.u.ctrl) h3 h7 s f
  have hout : outcome (.fragment f) s = pixelStatus px := by
    simp [hst, outcome, violatesProtocol, isBadBegin, hds, decodePath_eq_tex4_iff, decodePath_eq_tex8_iff]
  refine ⟨_, exec_row_or_fragment (f := f) hds rfl (by simp), ?_⟩
  rw [hpx, hout]
  exact finishPixel_answersStatus f px s

theorem eq_fragment_of_isFragment {i : Instr} (hpath : i.isPathRow = false) (hfrag : isFragment i = true) :
    ∃ f, i = .fragment f := by
  cases i with
  | fragment f => exact ⟨f, rfl⟩
  | fragShade0 _ | fragShade1 _ | fragShade2 _ | pathInvalid3 _ | fragTex4 _ | fragTex8 _ | fragTex15 _
  | pathInvalid7 _ => cases hpath
  | _ => cases hfrag

/-- A FRAGMENT that has no cause of R262 finds a draw open, and answers the status of R266. -/
theorem fragment_answersOutcome {f : FragIn} {s : State} (hinv : s.Inv)
    (hv : violatesProtocol (.fragment f) s = false) :
    ∃ t, exec (.fragment f) s = .next t ∧ AnswersStatus (outcome (.fragment f) s) s t := by
  cases hds : s.ds with
  | idle => simp [violatesProtocol, hds] at hv
  | opened => exact fragment_opened_answersOutcome hds (hinv.openMode hds)
  | failed => exact fragment_failed_answersOutcome hds

/-- Settles O10: the refusals are the list's first line, FRAGMENT's lines are those of its draw state and path, and
`Result.answersStatus` gives the other commands'. -/
theorem outcomePriority : Obligations.OutcomePriority := by
  intro i s hinv hpath
  suffices h : ∃ t, exec i s = .next t ∧ AnswersStatus (outcome i s) s t by
    obtain ⟨t, hexec, r, hrsp, hst⟩ := h
    exact ⟨t, r, hexec, hrsp, hst⟩
  cases hv : violatesProtocol i s with
  | true =>
    have hout : outcome i s = .protoError := if_pos hv
    exact ⟨_, exec_of_violatesProtocol hv, hout ▸ refusedBy_answersStatus s⟩
  | false =>
    cases hfrag : isFragment i with
    | true =>
      obtain ⟨f, rfl⟩ := eq_fragment_of_isFragment hpath hfrag
      exact fragment_answersOutcome hinv hv
    | false =>
      obtain ⟨t, hexec, hr⟩ := exec_result i s
      obtain ⟨st, -, hanswer, hst⟩ := hr.answersStatus hv
      exact ⟨t, hexec, hst hfrag ▸ hanswer⟩

end Sys2Proof.Machine

/-! SUPPORT. Proofs for the family 70_reset_and_hazards.md: the machine after reset (R290), and that a committed word is
seen by the very next command (R299). -/

namespace Sys2Proof.Machine

/-! ## Reset (R290) -/

/-- A byte that nothing has written reads as the open parameter `vram_init` (R290, log 5). -/
@[simp] theorem readByte_nil (a : Nat) : readByte [] a = Config.vramInit a := rfl

@[simp] theorem readWord_nil (a : WordAddr) :
    readWord [] a = Config.vramInit (2 * a.toNat + 1) ++ Config.vramInit (2 * a.toNat) := by
  rw [readWord, readByte_nil, readByte_nil]

/-- Settles O55: the fields are the reset values themselves, and both bytes of a word of LIVE are unwritten. -/
theorem resetStateAsSpecified : Obligations.ResetStateAsSpecified :=
  ⟨rfl, rfl, rfl, rfl, rfl, readWord_nil⟩

theorem memoryWf_nil : Memory.wf [] := by simp [Memory.wf]

theorem memoryWhole_nil : Memory.whole [] := by simp [Memory.whole]

/-- Settles O56: no draw is open after reset, nothing is pending, and no byte of LIVE is written. -/
theorem resetMeetsInvariant : Obligations.ResetMeetsInvariant :=
  inv_of_idle rfl rfl ⟨memoryWf_nil, memoryWhole_nil⟩

/-! ## A committed word is visible at once (R61, R299) -/

/-- Settles O54: END_DRAW leaves in LIVE a word that was pending there, here the only one (O23), and closes the draw, so
VRAM_READ answers the word of LIVE (O51). -/
theorem committedWordIsReadBack : Obligations.CommittedWordIsReadBack := by
  intro x y w s hinv hds hpend
  obtain ⟨t, hend, hcommit, -, ht⟩ := endDrawCommitsPendingWords s hinv hds
  have hidle : t.ds = .idle := by rw [ht]
  have hrsp : t.responses = s.responses ++ [0x00000000#32] := by rw [ht]
  have hword : readWord t.live (clampedAddr x y) = w := by
    have hmem := hcommit (clampedAddr x y) (by simp [hpend])
    rw [hpend] at hmem
    exact List.mem_singleton.1 hmem
  refine ⟨t, _, hend, vramReadReturnsWord x y t hidle, ?_⟩
  simp [hrsp, hword]

end Sys2Proof.Machine
